-- ==== Sys2Proof/Word.lean ====
section
/-! DEFINITION. The Word (00_scope.md R11, 20_memory.md R44): a mathematical integer, with no bits a program can see
and no byte layout. Which integers are Words depends on `WORD_BITS` and stands in Config.lean. -/

namespace Sys2Proof

/-- A memory cell, register, parameter or Device entry (00_scope.md R11, R15). All arithmetic on Words is exact
integer arithmetic; `Config.inRange` says which integers are Words. -/
abbrev Word := Int

end Sys2Proof
end

