-- ==== Sys2Proof/Config.lean ====
section
/-! DEFINITION. The parameters of 00_scope.md R9: `WORD_BITS`, the Word range and `ADDR_MAX` derived from it,
`FETCH_BEYOND_IMAGE`, and the argument `reload_ports` of a Reload. No value is left free without a name here: the
two machine parameters are kept open (a State carries its own, notes/assumptions/1.md). -/

namespace Sys2Proof

/-- `FETCH_BEYOND_IMAGE` (00_scope.md R9, 20_memory.md R38): what an instruction-stream read at an address at or
beyond the image length does. -/
inductive FetchBeyondImage where
  /-- The default: the read raises `FetchOutOfImage`. -/
  | fault
  /-- The read goes through the address translator like a data read. -/
  | sparse
  deriving DecidableEq, Repr

/-- The machine parameters of 00_scope.md R9. -/
structure Config where
  /-- `WORD_BITS`, the width of a Word; `Config.legal` says it is at least 64. -/
  wordBits : Nat
  /-- `FETCH_BEYOND_IMAGE`. -/
  fetchBeyondImage : FetchBeyondImage
  deriving DecidableEq, Repr

namespace Config

/-- The defaults of 00_scope.md R9: 64 bits, fetches beyond the image fault. -/
def standard : Config := ⟨64, .fault⟩

/-- `WORD_BITS >= 64` (00_scope.md R9). -/
def legal (c : Config) : Bool := decide (64 ≤ c.wordBits)

/-- `ADDR_MAX`, the largest address; it equals `WORD_MAX` (00_scope.md R9). -/
def addrMax (c : Config) : Nat := 2 ^ (c.wordBits - 1) - 1

/-- `WORD_MAX` (00_scope.md R9). -/
def wordMax (c : Config) : Int := (c.addrMax : Int)

/-- `WORD_MIN` (00_scope.md R9). -/
def wordMin (c : Config) : Int := -(c.addrMax : Int) - 1

/-- `inrange(v)` (00_scope.md R11): the integer is a Word. -/
abbrev inRange (c : Config) (v : Int) : Prop := c.wordMin ≤ v ∧ v ≤ c.wordMax

end Config

/-- `reload_ports` (00_scope.md R9, 70_reset_and_hazards.md R127): whether a Reload keeps the Devices' words. -/
inductive ReloadPorts where
  | preserve
  | clear
  deriving DecidableEq, Repr

/-- `SENTINEL` (00_scope.md R9): the default word a network driver feeds to a machine blocked on IN. -/
def defaultSentinel : Word := -1

end Sys2Proof
end

