-- ==== Sys2Proof/Machine/State.lean ====
section
/-! DEFINITION. The state of one Machine (10_state.md R16) as plain data, the reasons a step could stop, and the state
after reset (10_state.md R32). -/

namespace Sys2Proof.Machine

/-- The status register (10_state.md R23): an enumeration without numbers or bits (R24). -/
inductive Status where
  /-- The initial state, and safe to resume. -/
  | paused
  /-- A run operation is executing instructions; never observed by the host (R25). -/
  | running
  /-- Blocked on an empty input Device. -/
  | pendingInput
  /-- HLT has executed; terminal. -/
  | halted
  /-- A fatal error occurred; terminal. -/
  | faulted
  deriving DecidableEq, Repr

/-- The fault causes (60_exceptions.md R86). -/
inductive FaultCause where
  /-- Code 1: the instruction word is negative or its opcode unknown. -/
  | unknownOpcode
  /-- Code 2: an illegal mode digit, or an instruction word of 100000 or more. -/
  | illegalMode
  /-- Code 3: a destination parameter in mode 1. -/
  | immediateDestination
  /-- Code 4: an effective address, or a taken jump's target, below 0. -/
  | negativeAddress
  /-- Code 5: an exact result that is not a Word, or an address past `ADDR_MAX`. -/
  | overflow
  /-- Code 6: an instruction-stream read beyond the image under `FETCH_BEYOND_IMAGE = fault`. -/
  | fetchOutOfImage
  /-- Code 7: the host popped an empty output Device. -/
  | outputEmpty
  deriving DecidableEq, Repr

/-- The fault record's triple (10_state.md R26). -/
structure FaultRecord where
  cause : FaultCause
  /-- The address of the faulting instruction's instruction word. -/
  fpc : Nat
  /-- The offending address, instruction word or exact result: an unbounded integer. -/
  info : Int
  deriving DecidableEq, Repr

/-- Memory: a sparse list of (address, Word) pairs, in the canonical form of `Memory.wf`. The image and the extension
(10_state.md R27) are one list, since their split cannot be observed (notes/assumptions/2.md). -/
abbrev Memory := List (Nat × Word)

/-- What an address that is not listed reads as: 0 (10_state.md R27, 20_memory.md R36). -/
def Memory.unlisted : Word := 0

/-- The canonical form: addresses strictly rising, and no entry equal to what an unlisted address reads as. -/
def Memory.wf : Memory → Bool
  | [] => true
  | (a, v) :: m => decide (v ≠ Memory.unlisted) && m.all (fun c => decide (a < c.1)) && Memory.wf m

/-- The state of one Machine (10_state.md R16), with the parameters it runs under. -/
structure State where
  /-- `WORD_BITS` and `FETCH_BEYOND_IMAGE` (00_scope.md R9): not state of the spec's Machine (10_state.md R31), kept
  here because a step takes nothing else (notes/assumptions/1.md, DESIGN CHOICE). No instruction changes it. -/
  config : Config
  /-- `mem` (10_state.md R27). -/
  mem : Memory
  /-- `L`, the image length: set at each load (00_scope.md R9). -/
  imageLen : Nat
  /-- The program counter (10_state.md R19); a natural number, since it is never negative. -/
  pc : Nat
  /-- The relative-base register (10_state.md R22). -/
  base : Word
  /-- The status register (10_state.md R23). -/
  status : Status
  /-- The fault record (10_state.md R26). -/
  fault : Option FaultRecord
  /-- The input Device `in`, front first (10_state.md R29). -/
  input : List Word
  /-- The output Device `out`, front first (10_state.md R29). -/
  output : List Word
  deriving DecidableEq, Repr

/-- Reasons for the model to stop with a fault: NONE. The spec's faults leave a state the spec describes (status
`Faulted`, the fault record, everything else unchanged: 60_exceptions.md R87), in which later run operations do nothing
(R90, R96), so they are next states of the model (notes/assumptions/5.md). Safe: the type is empty, so the model never
stops where the machine goes on. -/
inductive Fault where
  deriving DecidableEq, Repr

/-- Reasons for the model to refuse an instruction. -/
inductive Refusal where
  /-- Raised only by an arm of `exec` for an instruction that has no meaning yet; no arm is one. Safe: a refusal claims
  nothing. -/
  | notModelled (mnemonic : String)
  deriving DecidableEq, Repr

/-- The state after reset (10_state.md R32): what Construct leaves (70_reset_and_hazards.md R126) for the empty Program
under the default parameters. The host loads a Program from outside (notes/assumptions/3.md). -/
def State.reset : State where
  config := Config.standard
  mem := []
  imageLen := 0
  pc := 0
  base := 0
  status := .paused
  fault := none
  input := []
  output := []

end Sys2Proof.Machine
end

