-- ==== Sys2Proof/Machine/Flags.lean ====
section
/-! DEFINITION. The machine has no flags or condition codes (10_state.md R18): a comparison's result is a Word in
memory, and a jump tests an operand. Both are here. -/

namespace Sys2Proof.Machine

/-- A comparison's result Word: 1 when it holds, else 0 (10_state.md R18, 40_alu.md R76, R77). -/
def comparisonWord (holds : Bool) : Word := if holds then 1 else 0

/-- LT's comparison, signed (40_alu.md R76). -/
def lessThan (a b : Word) : Bool := decide (a < b)

/-- EQ's comparison (40_alu.md R77). -/
def equalTo (a b : Word) : Bool := decide (a = b)

/-- JNZ's condition (42_control.md R81). -/
def isNonzero (a : Word) : Bool := decide (a ≠ 0)

/-- JZ's condition (42_control.md R82). -/
def isZero (a : Word) : Bool := decide (a = 0)

end Sys2Proof.Machine
end

