-- ==== Sys2Proof/Machine/Ops.lean ====
section
/-! DEFINITION. The named operations over memory, registers and Devices, raising a fault and settling the status: each
meaning is written over these. -/

namespace Sys2Proof.Machine

/-! ## Memory -/

/-- `MemRead(a, 1)` (20_memory.md R36). -/
def Memory.read : Memory → Nat → Word
  | [], _ => Memory.unlisted
  | (k, v) :: m, a => if a = k then v else Memory.read m a

/-- `MemWrite(a, 1, v)` (20_memory.md R37), in canonical form: writing what an unlisted address reads as removes the
entry. -/
def Memory.write : Memory → Nat → Word → Memory
  | [], a, v => if v = Memory.unlisted then [] else [(a, v)]
  | (k, w) :: m, a, v =>
    if a < k then (if v = Memory.unlisted then (k, w) :: m else (a, v) :: (k, w) :: m)
    else if a = k then (if v = Memory.unlisted then m else (a, v) :: m)
    else (k, w) :: Memory.write m a v

/-- The memory that holds a Program at addresses `a`, `a + 1`, … and is 0 elsewhere (70_reset_and_hazards.md R126). -/
def Memory.load : Nat → List Word → Memory
  | _, [] => []
  | a, v :: vs => if v = Memory.unlisted then Memory.load (a + 1) vs else (a, v) :: Memory.load (a + 1) vs

/-! ## Updates of one piece of state -/

/-- `MemWrite` on the state's memory (20_memory.md R37). -/
def State.memWrite (s : State) (a : Nat) (v : Word) : State := { s with mem := s.mem.write a v }

/-- `MemRead` on the state's memory (20_memory.md R36). -/
def State.memRead (s : State) (a : Nat) : Word := s.mem.read a

/-- `pc <- n` (00_scope.md R13). -/
def State.setPc (s : State) (n : Nat) : State := { s with pc := n }

/-- `base <- v` (00_scope.md R13). -/
def State.setBase (s : State) (v : Word) : State := { s with base := v }

/-- `status <- x`. -/
def State.setStatus (s : State) (x : Status) : State := { s with status := x }

/-! ## Devices (10_state.md R29) -/

/-- `InEmpty()`. -/
def State.inEmpty (s : State) : Bool := s.input.isEmpty

/-- `InPop()`: the front word and the state without it; `none` when the Device is empty, where R29 does not allow the
call. -/
def State.inPop (s : State) : Option (Word × State) :=
  match s.input with
  | [] => none
  | v :: rest => some (v, { s with input := rest })

/-- `OutPush(v)`: appends at the back; it always succeeds (10_state.md R30). -/
def State.outPush (s : State) (v : Word) : State := { s with output := s.output ++ [v] }

/-! ## Checks and faults -/

/-- The numeric code of a fault cause (60_exceptions.md R86). No instruction reads it. -/
def FaultCause.code : FaultCause → Nat
  | .unknownOpcode => 1
  | .illegalMode => 2
  | .immediateDestination => 3
  | .negativeAddress => 4
  | .overflow => 5
  | .fetchOutOfImage => 6
  | .outputEmpty => 7

/-- What a failed check reports: the cause and `info` of `raise Fault(cause, info)` (00_scope.md R13). -/
structure Raised where
  cause : FaultCause
  info : Int
  deriving DecidableEq, Repr

/-- A computation that may fail a check. It returns no state, so a failed check has changed none
(60_exceptions.md R87). -/
abbrev Checked := Except Raised

/-- `raise Fault(cause, info)` (00_scope.md R13). -/
def raise {α : Type} (cause : FaultCause) (info : Int) : Checked α := .error ⟨cause, info⟩

/-- The check of a result that must be a Word: `if not inrange(r): raise Fault(Overflow, r)` (00_scope.md R11,
60_exceptions.md R88). -/
def State.checkWord (s : State) (r : Int) : Checked Word :=
  if s.config.inRange r then .ok r else raise .overflow r

/-- Taking a fault (60_exceptions.md R87, R95): the record takes the cause, the pc of the faulting instruction and the
offending integer; the status becomes Faulted; nothing else changes. -/
def State.takeFault (s : State) (r : Raised) : State :=
  { s with fault := some ⟨r.cause, s.pc, r.info⟩, status := .faulted }

/-- Halted and Faulted: no run operation executes anything (60_exceptions.md R96). -/
def Status.terminal : Status → Bool
  | .halted => true
  | .faulted => true
  | .paused => false
  | .running => false
  | .pendingInput => false

/-! ## Instruction-stream reads and the fall-through pc -/

/-- `Fetch(a)` (20_memory.md R38). -/
def State.fetch (s : State) (a : Nat) : Checked Word :=
  if s.config.addrMax < a then raise .overflow a
  else if s.imageLen ≤ a ∧ s.config.fetchBeyondImage = .fault then raise .fetchOutOfImage a
  else .ok (s.memRead a)

/-- `Advance(k)` (30_encoding.md R60). -/
def State.advance (s : State) (k : Nat) : Checked Nat :=
  if s.config.addrMax < s.pc + k then raise .overflow ((s.pc + k : Nat) : Int) else .ok (s.pc + k)

/-! ## The outcome of one instruction -/

/-- What a completed instruction did at the Devices (30_encoding.md R61). -/
inductive DoneKind where
  | other
  | input
  | output
  deriving DecidableEq, Repr

/-- The outcome of executing one instruction (30_encoding.md R61). `blocked` and `fault` carry no state: they change
none. -/
inductive InstrOutcome where
  /-- Completed, with the state after it. -/
  | done (k : DoneKind) (s : State)
  /-- IN found the input Device empty. -/
  | blocked
  /-- HLT completed, with the state after it. -/
  | halt (s : State)
  /-- A check failed. -/
  | fault (r : Raised)
  deriving DecidableEq, Repr

/-- A rule whose check fails ends in that fault (30_encoding.md R59, R61). -/
def InstrOutcome.ofChecked : Checked InstrOutcome → InstrOutcome
  | .ok o => o
  | .error r => .fault r

/-- `Settle(r)` (60_exceptions.md R95), from the state `s` before the instruction. -/
def State.settled (s : State) : InstrOutcome → State
  | .done _ t => t.setStatus .paused
  | .blocked => s.setStatus .pendingInput
  | .halt t => t.setStatus .halted
  | .fault r => s.takeFault r

/-- The instruction's rule followed by `Settle`: always a next state, faults included (60_exceptions.md R95, R97). -/
def settle (s : State) (o : InstrOutcome) : Host.Outcome State Fault Refusal := .next (s.settled o)

end Sys2Proof.Machine
end

