-- ==== Sys2Proof/Syntax.lean ====
section
/-! DEFINITION. The ten instructions (30_encoding.md R57) with their operands as the addressing modes give them
(20_memory.md R39). A destination cannot be immediate here: the decoder refuses that word by name (R67). -/

namespace Sys2Proof

/-- The three addressing modes (20_memory.md R39). -/
inductive Mode where
  | position
  | immediate
  | relative
  deriving DecidableEq, Repr

/-- A source parameter with its mode: the parameter word is the constructor's argument (20_memory.md R39). -/
inductive Source where
  /-- Mode 0, `[p]`: the cell at address `p`. -/
  | position (p : Word)
  /-- Mode 1, `#p`: the parameter itself. -/
  | immediate (p : Word)
  /-- Mode 2, `[rb+p]`: the cell at `base + p`. -/
  | relative (p : Word)
  deriving DecidableEq, Repr

/-- A destination parameter: mode 0 or mode 2 (20_memory.md R41). -/
inductive Destination where
  /-- Mode 0, `[p]`. -/
  | position (p : Word)
  /-- Mode 2, `[rb+p]`. -/
  | relative (p : Word)
  deriving DecidableEq, Repr

/-- One constructor per row of spec/opcode_table.json (30_encoding.md R57), parameters in their order. -/
inductive Instr where
  /-- ADD, opcode 1 (40_alu.md R74). -/
  | add (a b : Source) (dest : Destination)
  /-- MUL, opcode 2 (40_alu.md R75). -/
  | mul (a b : Source) (dest : Destination)
  /-- IN, opcode 3 (41_io.md R78). -/
  | inp (dest : Destination)
  /-- OUT, opcode 4 (41_io.md R79). -/
  | out (a : Source)
  /-- JNZ, opcode 5 (42_control.md R81). -/
  | jnz (a target : Source)
  /-- JZ, opcode 6 (42_control.md R82). -/
  | jz (a target : Source)
  /-- LT, opcode 7 (40_alu.md R76). -/
  | lt (a b : Source) (dest : Destination)
  /-- EQ, opcode 8 (40_alu.md R77). -/
  | eq (a b : Source) (dest : Destination)
  /-- ADJ, opcode 9 (43_base.md R85). -/
  | adj (a : Source)
  /-- HLT, opcode 99 (42_control.md R83). -/
  | hlt
  deriving DecidableEq, Repr

/-- The parameter word of a source. -/
def Source.param : Source → Word
  | .position p => p
  | .immediate p => p
  | .relative p => p

/-- The mode of a source. -/
def Source.mode : Source → Mode
  | .position _ => .position
  | .immediate _ => .immediate
  | .relative _ => .relative

/-- The parameter word of a destination. -/
def Destination.param : Destination → Word
  | .position p => p
  | .relative p => p

/-- The mode of a destination. -/
def Destination.mode : Destination → Mode
  | .position _ => .position
  | .relative _ => .relative

/-- The parameter words in order: Words 1 to `n` of the instruction (30_encoding.md R52). -/
def Instr.params : Instr → List Word
  | .add a b d => [a.param, b.param, d.param]
  | .mul a b d => [a.param, b.param, d.param]
  | .inp d => [d.param]
  | .out a => [a.param]
  | .jnz a t => [a.param, t.param]
  | .jz a t => [a.param, t.param]
  | .lt a b d => [a.param, b.param, d.param]
  | .eq a b d => [a.param, b.param, d.param]
  | .adj a => [a.param]
  | .hlt => []

/-- The instruction's width in Words, `1 + n` (30_encoding.md R53, R57, R58). -/
def Instr.width : Instr → Nat
  | .add _ _ _ => 4
  | .mul _ _ _ => 4
  | .inp _ => 2
  | .out _ => 2
  | .jnz _ _ => 3
  | .jz _ _ => 3
  | .lt _ _ _ => 4
  | .eq _ _ _ => 4
  | .adj _ => 2
  | .hlt => 1

end Sys2Proof
end

