-- ==== Sys2Proof/Machine/Operands.lean ====
section
/-! DEFINITION. The addressing-mode resolver (20_memory.md R39 to R42): every operand form. -/

namespace Sys2Proof.Machine

/-- The checks of `EA` on an exact address: a Word (`Overflow`), then not negative (`NegativeAddress`)
(20_memory.md R40). -/
def State.checkAddress (s : State) (a : Int) : Checked Nat :=
  if ¬ s.config.inRange a then raise .overflow a
  else if a < 0 then raise .negativeAddress a
  else .ok a.toNat

/-- `ReadOperand(m, p)` (20_memory.md R40). -/
def State.readOperand (s : State) : Source → Checked Word
  | .immediate p => .ok p
  | .position p => do
    let a ← s.checkAddress p
    return s.memRead a
  | .relative p => do
    let a ← s.checkAddress (s.base + p)
    return s.memRead a

/-- `DestAddress(m, p)` (20_memory.md R40, R41). -/
def State.destAddress (s : State) : Destination → Checked Nat
  | .position p => s.checkAddress p
  | .relative p => s.checkAddress (s.base + p)

end Sys2Proof.Machine
end

