-- ==== Sys2Proof/Machine/Alu.lean ====
section
/-! DEFINITION. ADD, MUL, LT and EQ (40_alu.md). `<name>Rule` is the rule's pseudocode with its outcome
(30_encoding.md R61); `exec<Name>` is the rule followed by Settle (60_exceptions.md R95). -/

namespace Sys2Proof.Machine

/-- The shape the four rules share: both sources, then the destination address, then the result, then `Advance(4)`,
then the write (40_alu.md R74 to R77; 20_memory.md R42). -/
def threeOperandRule (result : Word → Word → Checked Word) (a b : Source) (dest : Destination) (s : State) :
    InstrOutcome :=
  .ofChecked do
    let va ← s.readOperand a
    let vb ← s.readOperand b
    let d ← s.destAddress dest
    let r ← result va vb
    let npc ← s.advance 4
    return .done .other ((s.memWrite d r).setPc npc)

/-- ADD (40_alu.md R74): the exact sum, `Overflow` when it is not a Word. -/
def addRule (a b : Source) (dest : Destination) (s : State) : InstrOutcome :=
  threeOperandRule (fun x y => s.checkWord (x + y)) a b dest s

/-- MUL (40_alu.md R75): the exact product, `Overflow` when it is not a Word. -/
def mulRule (a b : Source) (dest : Destination) (s : State) : InstrOutcome :=
  threeOperandRule (fun x y => s.checkWord (x * y)) a b dest s

/-- LT (40_alu.md R76): 1 when the first source is below the second, else 0. -/
def ltRule (a b : Source) (dest : Destination) (s : State) : InstrOutcome :=
  threeOperandRule (fun x y => .ok (comparisonWord (lessThan x y))) a b dest s

/-- EQ (40_alu.md R77): 1 when the sources are equal, else 0. -/
def eqRule (a b : Source) (dest : Destination) (s : State) : InstrOutcome :=
  threeOperandRule (fun x y => .ok (comparisonWord (equalTo x y))) a b dest s

/-- The meaning of ADD. -/
def execAdd (a b : Source) (dest : Destination) (s : State) : Host.Outcome State Fault Refusal :=
  settle s (addRule a b dest s)

/-- The meaning of MUL. -/
def execMul (a b : Source) (dest : Destination) (s : State) : Host.Outcome State Fault Refusal :=
  settle s (mulRule a b dest s)

/-- The meaning of LT. -/
def execLt (a b : Source) (dest : Destination) (s : State) : Host.Outcome State Fault Refusal :=
  settle s (ltRule a b dest s)

/-- The meaning of EQ. -/
def execEq (a b : Source) (dest : Destination) (s : State) : Host.Outcome State Fault Refusal :=
  settle s (eqRule a b dest s)

end Sys2Proof.Machine
end

