-- ==== Sys2Proof/Machine/Base.lean ====
section
/-! DEFINITION. ADJ (43_base.md), the only instruction that writes the relative base. -/

namespace Sys2Proof.Machine

/-- ADJ (43_base.md R85): the operand is read with the old base; the exact sum must be a Word. -/
def adjRule (a : Source) (s : State) : InstrOutcome :=
  .ofChecked do
    let v ← s.readOperand a
    let nb ← s.checkWord (s.base + v)
    let npc ← s.advance 2
    return .done .other ((s.setBase nb).setPc npc)

/-- The meaning of ADJ. -/
def execAdj (a : Source) (s : State) : Host.Outcome State Fault Refusal := settle s (adjRule a s)

end Sys2Proof.Machine
end

