-- ==== Sys2Proof/Machine/Control.lean ====
section
/-! DEFINITION. JNZ, JZ and HLT (42_control.md). -/

namespace Sys2Proof.Machine

/-- The shape JNZ and JZ share (42_control.md R81, R82): both operands are resolved whether or not the jump is taken;
only a taken jump checks that its target is not negative. -/
def jumpRule (taken : Word → Bool) (a target : Source) (s : State) : InstrOutcome :=
  .ofChecked do
    let v ← s.readOperand a
    let t ← s.readOperand target
    if taken v then
      if t < 0 then raise .negativeAddress t
      else return .done .other (s.setPc t.toNat)
    else
      let npc ← s.advance 3
      return .done .other (s.setPc npc)

/-- JNZ (42_control.md R81). -/
def jnzRule (a target : Source) (s : State) : InstrOutcome := jumpRule isNonzero a target s

/-- JZ (42_control.md R82). -/
def jzRule (a target : Source) (s : State) : InstrOutcome := jumpRule isZero a target s

/-- HLT (42_control.md R83): pc moves one past it; the outcome is Halt. -/
def hltRule (s : State) : InstrOutcome :=
  .ofChecked do
    let npc ← s.advance 1
    return .halt (s.setPc npc)

/-- The meaning of JNZ. -/
def execJnz (a target : Source) (s : State) : Host.Outcome State Fault Refusal := settle s (jnzRule a target s)

/-- The meaning of JZ. -/
def execJz (a target : Source) (s : State) : Host.Outcome State Fault Refusal := settle s (jzRule a target s)

/-- The meaning of HLT. -/
def execHlt (s : State) : Host.Outcome State Fault Refusal := settle s (hltRule s)

end Sys2Proof.Machine
end

