-- ==== Sys2Proof/Machine/Io.lean ====
section
/-! DEFINITION. IN and OUT (41_io.md), the only instructions that reach the Devices. -/

namespace Sys2Proof.Machine

/-- IN (41_io.md R78): the destination is resolved before the Device is tested, so a bad destination faults even when
no input is there; an empty Device blocks with nothing changed. -/
def inRule (dest : Destination) (s : State) : InstrOutcome :=
  .ofChecked do
    let d ← s.destAddress dest
    match s.inPop with
    | none => return .blocked
    | some (v, t) =>
      let npc ← s.advance 2
      return .done .input ((t.memWrite d v).setPc npc)

/-- OUT (41_io.md R79). -/
def outRule (a : Source) (s : State) : InstrOutcome :=
  .ofChecked do
    let v ← s.readOperand a
    let npc ← s.advance 2
    return .done .output ((s.outPush v).setPc npc)

/-- The meaning of IN. -/
def execIn (dest : Destination) (s : State) : Host.Outcome State Fault Refusal := settle s (inRule dest s)

/-- The meaning of OUT. -/
def execOut (a : Source) (s : State) : Host.Outcome State Fault Refusal := settle s (outRule a s)

end Sys2Proof.Machine
end

