-- ==== Sys2Proof/Machine/Dispatch.lean ====
section
/-! DEFINITION. One arm per instruction of spec/opcode_table.json. -/

namespace Sys2Proof.Machine

def exec (i : Instr) (s : State) : Host.Outcome State Fault Refusal :=
  match i with
  | .add a b dest => Sys2Proof.Machine.execAdd a b dest s
  | .mul a b dest => Sys2Proof.Machine.execMul a b dest s
  | .inp dest => Sys2Proof.Machine.execIn dest s
  | .out a => Sys2Proof.Machine.execOut a s
  | .jnz a target => Sys2Proof.Machine.execJnz a target s
  | .jz a target => Sys2Proof.Machine.execJz a target s
  | .lt a b dest => Sys2Proof.Machine.execLt a b dest s
  | .eq a b dest => Sys2Proof.Machine.execEq a b dest s
  | .adj a => Sys2Proof.Machine.execAdj a s
  | .hlt => Sys2Proof.Machine.execHlt s

end Sys2Proof.Machine
end

