-- ==== Sys2Proof/WellFormed.lean ====
section
/-! DEFINITION. What an instruction must satisfy beyond its type: every parameter is a Word of the machine
(30_encoding.md R52), that is, in the range `WORD_BITS` gives (00_scope.md R11). -/

namespace Sys2Proof

/-- Every parameter of the instruction is a Word (30_encoding.md R52: "A parameter is a whole Word"). -/
def Instr.wellFormed (c : Config) (i : Instr) : Bool := i.params.all fun p => decide (c.inRange p)

end Sys2Proof
end

