-- ==== Sys2Proof/Decode.lean ====
section
/-! DEFINITION. Decimal instruction decoding (30_encoding.md R54 to R69) and, after it, the encoder. The decode
procedure of R59 is in two halves, because the machine fetches the parameter words between them: `decodeHeader` is
lines 2 to 7 (the instruction word alone) and `Header.assemble` is line 9 (the immediate destination). `decode` is
the same procedure over a list of Words. -/

namespace Sys2Proof

/-- Why an instruction word is illegal (30_encoding.md R62 to R67; the causes 1 to 3 of 60_exceptions.md R86). -/
inductive Reject where
  /-- The word is negative (R62) or its opcode is none of 1 to 9 and 99 (R63). -/
  | unknownOpcode
  /-- A mode digit of 3 to 9 (R64), a digit for an absent parameter (R65), or a word of 100000 or more (R66). -/
  | illegalMode
  /-- A destination parameter in mode 1 (R67). -/
  | immediateDestination
  deriving DecidableEq, Repr

/-- Why a list of Words does not begin with an instruction. -/
inductive DecodeError where
  /-- The list ends before the instruction does. -/
  | truncated
  /-- The instruction word is illegal. -/
  | illegal (r : Reject)
  deriving DecidableEq, Repr

/-- The opcodes (30_encoding.md R57). -/
inductive Opcode where
  | add | mul | inp | out | jnz | jz | lt | eq | adj | hlt
  deriving DecidableEq, Repr

/-- The opcode of a two-digit number; `none` where R57 lists none (30_encoding.md R57, R63). -/
def Opcode.ofNumber : Nat → Option Opcode
  | 1 => some .add
  | 2 => some .mul
  | 3 => some .inp
  | 4 => some .out
  | 5 => some .jnz
  | 6 => some .jz
  | 7 => some .lt
  | 8 => some .eq
  | 9 => some .adj
  | 99 => some .hlt
  | _ => none

/-- The parameter count `n` of the opcode (30_encoding.md R57). -/
def Opcode.nparams : Opcode → Nat
  | .add => 3
  | .mul => 3
  | .inp => 1
  | .out => 1
  | .jnz => 2
  | .jz => 2
  | .lt => 3
  | .eq => 3
  | .adj => 1
  | .hlt => 0

/-- `digit_k(w)`: the decimal digit of weight `10^k` (00_scope.md R12). -/
def digit (k n : Nat) : Nat := n / 10 ^ k % 10

/-- The mode a digit selects; 3 to 9 are not modes (30_encoding.md R55). -/
def Mode.ofDigit : Nat → Option Mode
  | 0 => some .position
  | 1 => some .immediate
  | 2 => some .relative
  | _ => none

/-- One turn of line 7 of R59: the digit of a parameter the opcode has must be a mode (R64), that of an absent
parameter must be 0 (R65). -/
def modeField (present : Bool) (d : Nat) : Option Mode :=
  if present then Mode.ofDigit d else if d = 0 then some .position else none

/-- What the instruction word alone says (30_encoding.md R54). An absent parameter's mode is `position`. -/
structure Header where
  op : Opcode
  m1 : Mode
  m2 : Mode
  m3 : Mode
  deriving DecidableEq, Repr

/-- Lines 2 to 7 of the decode procedure (30_encoding.md R59). -/
def decodeHeader (w : Word) : Except Reject Header :=
  if w < 0 then .error .unknownOpcode
  else
    match Opcode.ofNumber (w.toNat % 100) with
    | none => .error .unknownOpcode
    | some op =>
      if 100000 ≤ w.toNat then .error .illegalMode
      else
        match modeField (decide (1 ≤ op.nparams)) (digit 2 w.toNat),
          modeField (decide (2 ≤ op.nparams)) (digit 3 w.toNat),
          modeField (decide (3 ≤ op.nparams)) (digit 4 w.toNat) with
        | some m1, some m2, some m3 => .ok ⟨op, m1, m2, m3⟩
        | _, _, _ => .error .illegalMode

/-- A source parameter under its mode (20_memory.md R39). -/
def Source.ofMode (m : Mode) (p : Word) : Source :=
  match m with
  | .position => .position p
  | .immediate => .immediate p
  | .relative => .relative p

/-- A destination parameter under its mode; mode 1 is illegal (20_memory.md R41, 30_encoding.md R67). -/
def Destination.ofMode (m : Mode) (p : Word) : Except Reject Destination :=
  match m with
  | .position => .ok (.position p)
  | .immediate => .error .immediateDestination
  | .relative => .ok (.relative p)

/-- Line 9 of the decode procedure (30_encoding.md R59): the instruction of a header and its parameter words. A
parameter the opcode does not have is not looked at. -/
def Header.assemble (h : Header) (p1 p2 p3 : Word) : Except Reject Instr :=
  let a := Source.ofMode h.m1 p1
  let b := Source.ofMode h.m2 p2
  match h.op with
  | .add => (Destination.ofMode h.m3 p3).map (Instr.add a b)
  | .mul => (Destination.ofMode h.m3 p3).map (Instr.mul a b)
  | .inp => (Destination.ofMode h.m1 p1).map Instr.inp
  | .out => .ok (.out a)
  | .jnz => .ok (.jnz a b)
  | .jz => .ok (.jz a b)
  | .lt => (Destination.ofMode h.m3 p3).map (Instr.lt a b)
  | .eq => (Destination.ofMode h.m3 p3).map (Instr.eq a b)
  | .adj => .ok (.adj a)
  | .hlt => .ok .hlt

/-- The first `n` (at most three) parameter words of a list, 0 for those the opcode lacks, and the rest of the list;
`none` when the list is too short. -/
def takeParams : Nat → List Word → Option (Word × Word × Word × List Word)
  | 0, ws => some (0, 0, 0, ws)
  | 1, p1 :: ws => some (p1, 0, 0, ws)
  | 2, p1 :: p2 :: ws => some (p1, p2, 0, ws)
  | 3, p1 :: p2 :: p3 :: ws => some (p1, p2, p3, ws)
  | _, _ => none

/-- The decode procedure (30_encoding.md R59) over a list of Words: the instruction at its front and the rest. -/
def decode : List Word → Except DecodeError (Instr × List Word)
  | [] => .error .truncated
  | w :: ws =>
    match decodeHeader w with
    | .error r => .error (.illegal r)
    | .ok h =>
      match takeParams h.op.nparams ws with
      | none => .error .truncated
      | some (p1, p2, p3, rest) =>
        match h.assemble p1 p2 p3 with
        | .error r => .error (.illegal r)
        | .ok i => .ok (i, rest)

/-! ## The encoder -/

/-- The digit that selects a mode (30_encoding.md R55). -/
def Mode.toDigit : Mode → Nat
  | .position => 0
  | .immediate => 1
  | .relative => 2

/-- `w = opcode + 100·m1 + 1000·m2 + 10000·m3` (30_encoding.md R54). -/
def headerWord (opcode m1 m2 m3 : Nat) : Word := ((opcode + 100 * m1 + 1000 * m2 + 10000 * m3 : Nat) : Int)

/-- The instruction word (30_encoding.md R54, R57). -/
def Instr.word : Instr → Word
  | .add a b d => headerWord 1 a.mode.toDigit b.mode.toDigit d.mode.toDigit
  | .mul a b d => headerWord 2 a.mode.toDigit b.mode.toDigit d.mode.toDigit
  | .inp d => headerWord 3 d.mode.toDigit 0 0
  | .out a => headerWord 4 a.mode.toDigit 0 0
  | .jnz a t => headerWord 5 a.mode.toDigit t.mode.toDigit 0
  | .jz a t => headerWord 6 a.mode.toDigit t.mode.toDigit 0
  | .lt a b d => headerWord 7 a.mode.toDigit b.mode.toDigit d.mode.toDigit
  | .eq a b d => headerWord 8 a.mode.toDigit b.mode.toDigit d.mode.toDigit
  | .adj a => headerWord 9 a.mode.toDigit 0 0
  | .hlt => headerWord 99 0 0 0

/-- The Words of an instruction: its instruction word and its parameters (30_encoding.md R52, R70's last line). -/
def encode (i : Instr) : List Word := i.word :: i.params

/-! ## The host's table words

The machine has no bits (00_scope.md R11, 20_memory.md R44). The host numbers an instruction's bits, so the numbering
below is a convention for it alone: each Word is 64 bits in two's complement, the first Word lowest
(notes/assumptions/4.md, DESIGN CHOICE). -/

/-- Bits per Word in the host's numbering. -/
def tableWordBits : Nat := 64

/-- The Word of a 64-bit pattern in two's complement. -/
def wordOfBits (n : Nat) : Word := if n < 2 ^ (tableWordBits - 1) then (n : Int) else (n : Int) - (2 ^ tableWordBits : Nat)

/-- The four Words (the longest instruction, R52) that `nbits` bits of `w` give, every bit above them 0. -/
def tableWords (nbits w : Nat) : List Word :=
  [0, 1, 2, 3].map fun k => wordOfBits (w % 2 ^ nbits / 2 ^ (tableWordBits * k) % 2 ^ tableWordBits)

/-- The instruction the decoder reads from the host's numbering of an instruction's bits. -/
def decodeTableWord (nbits w : Nat) : Option Instr :=
  match decode (tableWords nbits w) with
  | .ok (i, _) => some i
  | .error _ => none

end Sys2Proof
end

