-- ==== Sys2Proof/Machine/Fetch.lean ====
section
/-! DEFINITION. The fetch/decode engine at the current pc (30_encoding.md R59). -/

namespace Sys2Proof.Machine

/-- The fault cause of an illegal instruction word (60_exceptions.md R86, codes 1 to 3). -/
def causeOf : Reject → FaultCause
  | .unknownOpcode => .unknownOpcode
  | .illegalMode => .illegalMode
  | .immediateDestination => .immediateDestination

/-- A decoder's rejection of the instruction word `w` raises its cause with `info = w` (30_encoding.md R62 to R67). -/
def ofDecoder {α : Type} (w : Word) : Except Reject α → Checked α
  | .ok x => .ok x
  | .error r => raise (causeOf r) w

/-- Line 8 of R59 for parameter `i` of an opcode with `n` parameters: fetched where it exists, else 0 and not
looked at. -/
def State.fetchParam (s : State) (n i : Nat) : Checked Word := if i ≤ n then s.fetch (s.pc + i) else .ok 0

/-- `Decode()` (30_encoding.md R59): the instruction at pc, or the first check that fails (60_exceptions.md R89,
1 to 6). -/
def State.fetchInstr (s : State) : Checked Instr := do
  let w ← s.fetch s.pc
  let h ← ofDecoder w (decodeHeader w)
  let p1 ← s.fetchParam h.op.nparams 1
  let p2 ← s.fetchParam h.op.nparams 2
  let p3 ← s.fetchParam h.op.nparams 3
  ofDecoder w (h.assemble p1 p2 p3)

end Sys2Proof.Machine
end

