-- ==== Sys2Proof/Machine/Step.lean ====
section
/-! DEFINITION. One step of the machine: the run operation `step()` (60_exceptions.md R97), and the host's way to put
an instruction where a step fetches it. -/

namespace Sys2Proof.Machine

/-- `step()` (60_exceptions.md R97): nothing in a terminal status; else the status is Running, one instruction is
fetched and executed, and the status is settled (R95). A fault of the fetch or the decoder is taken like any other. -/
def step (s : State) : Host.Outcome State Fault Refusal :=
  if s.status.terminal then .next s
  else
    match (s.setStatus .running).fetchInstr with
    | .ok i => exec i (s.setStatus .running)
    | .error r => .next ((s.setStatus .running).takeFault r)

/-- `s` with the instruction of the host's table word stored at pc, for the next step to fetch and run: its four Words
in memory (those whose address exists), the image long enough to hold them, and a terminal status (in which no instruction runs) back to Paused
without a fault record, as a load leaves it (70_reset_and_hazards.md R127). It stands for loading a Program from outside
(notes/assumptions/3.md and 4.md). -/
def State.withFetchWord (s : State) (nbits w : Nat) : State :=
  let cells := ((tableWords nbits w).zipIdx s.pc).filter fun c => decide (c.2 ≤ s.config.addrMax)
  { s with
    mem := cells.foldl (fun m c => m.write c.2 c.1) s.mem
    imageLen := max s.imageLen (min (s.pc + 4) (s.config.addrMax + 1))
    status := if s.status.terminal then .paused else s.status
    fault := if s.status.terminal then none else s.fault }

end Sys2Proof.Machine
end

