-- ==== Sys2Proof/Machine/Exec1.lean ====
section
/-! DEFINITION. `Exec1()` (60_exceptions.md R94): one instruction with its raw outcome, which the run operations act on.
It writes neither status nor fault record. -/

namespace Sys2Proof.Machine

/-- The rule of a decoded instruction, with its outcome (30_encoding.md R61). `exec` is this rule and then Settle. -/
def ruleOf (i : Instr) (s : State) : InstrOutcome :=
  match i with
  | .add a b dest => addRule a b dest s
  | .mul a b dest => mulRule a b dest s
  | .inp dest => inRule dest s
  | .out a => outRule a s
  | .jnz a target => jnzRule a target s
  | .jz a target => jzRule a target s
  | .lt a b dest => ltRule a b dest s
  | .eq a b dest => eqRule a b dest s
  | .adj a => adjRule a s
  | .hlt => hltRule s

/-- `Exec1()` (60_exceptions.md R94): the decode procedure, then the instruction's rule. -/
def exec1 (s : State) : InstrOutcome :=
  match s.fetchInstr with
  | .ok i => ruleOf i s
  | .error r => .fault r

end Sys2Proof.Machine
end

