-- ==== Sys2Proof/Machine/RunOps.lean ====
section
/-! DEFINITION. The four run operations of the pause/resume scheduler (60_exceptions.md R96 to R102). A run operation
need not return (R102), so it takes fuel, one unit for each instruction, and running out of fuel is no state. -/

namespace Sys2Proof.Machine

/-- The run operations (60_exceptions.md R97 to R100). -/
inductive RunOp where
  | step
  | runToOutput
  | runToAnyIO
  | runToCompletion
  deriving DecidableEq, Repr

/-- Whether the operation returns after a completed instruction of this kind (60_exceptions.md R97 to R100, R105). -/
def RunOp.stopsAfter : RunOp → DoneKind → Bool
  | .step, .other => true
  | .step, .input => true
  | .step, .output => true
  | .runToOutput, .other => false
  | .runToOutput, .input => false
  | .runToOutput, .output => true
  | .runToAnyIO, .other => false
  | .runToAnyIO, .input => true
  | .runToAnyIO, .output => true
  | .runToCompletion, .other => false
  | .runToCompletion, .input => false
  | .runToCompletion, .output => false

/-- What a run operation under fuel reports (60_exceptions.md R102). -/
inductive RunResult where
  /-- The operation returned to the host in this state. -/
  | returned (s : State)
  /-- The fuel was spent; the operation may never return. -/
  | outOfFuel
  deriving DecidableEq, Repr

/-- The loop of R98 to R100: execute, go on after a completed instruction that is no stop, else settle and return. -/
def runLoop (op : RunOp) : Nat → State → RunResult
  | 0, _ => .outOfFuel
  | n + 1, s =>
    match exec1 s with
    | .done k t => if op.stopsAfter k then .returned (t.setStatus .paused) else runLoop op n t
    | .blocked => .returned (s.settled .blocked)
    | .halt t => .returned (s.settled (.halt t))
    | .fault r => .returned (s.settled (.fault r))

/-- A run operation (60_exceptions.md R96 to R100): a no-op in a terminal status, else Running and the loop. -/
def run (op : RunOp) (fuel : Nat) (s : State) : RunResult :=
  if s.status.terminal then .returned s else runLoop op fuel (s.setStatus .running)

end Sys2Proof.Machine
end

