-- ==== Sys2Proof/Machine/HostOps.lean ====
section
/-! DEFINITION. What the host can do to a Machine between run operations (60_exceptions.md R108 to R114,
70_reset_and_hazards.md R126, R127). The reads of status, fault record, pc and base (R113) are the State's fields. -/

namespace Sys2Proof.Machine

/-- Host errors: the operation is refused and nothing changes. -/
inductive HostError where
  /-- The value is not a Word (60_exceptions.md R109; 70_reset_and_hazards.md R126). -/
  | notAWord (v : Int)
  /-- The character is not allowed in PushAscii (60_exceptions.md R110). -/
  | notACharacter (c : Char)
  /-- The Program is longer than the address space (00_scope.md R9, the row of `L`). -/
  | programTooLong
  /-- The parameters are not a machine's: `WORD_BITS` below 64 (00_scope.md R9). -/
  | illegalConfig
  deriving DecidableEq, Repr

/-- `PushInput(v)` (60_exceptions.md R109). -/
def State.pushInput (s : State) (v : Int) : Except HostError State :=
  if s.config.inRange v then .ok { s with input := s.input ++ [v] } else .error (.notAWord v)

/-- The characters PushAscii takes: codes 32 to 126 and 10 (60_exceptions.md R110). -/
def allowedChar (c : Char) : Bool := decide (c.toNat = 10 ∨ (32 ≤ c.toNat ∧ c.toNat ≤ 126))

/-- `PushAscii(s)` (60_exceptions.md R110): every character is allowed, or nothing is pushed. -/
def State.pushAscii (s : State) (cs : List Char) : Except HostError State :=
  match cs.find? (fun c => !allowedChar c) with
  | some c => .error (.notACharacter c)
  | none => cs.foldlM (fun t c => t.pushInput c.toNat) s

/-- A driver's reading of output words as text (60_exceptions.md R110): 0 to 127 are ASCII characters, others are no
character. -/
def asText (ws : List Word) : List (Option Char) :=
  ws.map fun w => if 0 ≤ w ∧ w ≤ 127 then some (Char.ofNat w.toNat) else none

/-- `PopOutput()` (60_exceptions.md R111): the front word, or on an empty Device no word and the fault `OutputEmpty`,
whatever the status was. -/
def State.popOutput (s : State) : Option Word × State :=
  match s.output with
  | [] => (none, s.takeFault ⟨.outputEmpty, 0⟩)
  | v :: rest => (some v, { s with output := rest })

/-- The number of words in the input Device (60_exceptions.md R112). -/
def State.inputLength (s : State) : Nat := s.input.length

/-- The number of words in the output Device (60_exceptions.md R112). -/
def State.outputLength (s : State) : Nat := s.output.length

/-- The host's read of a memory cell, `0 <= a <= ADDR_MAX` (60_exceptions.md R113). -/
def State.readCell (s : State) (a : Int) : Option Word :=
  if 0 ≤ a ∧ a ≤ s.config.addrMax then some (s.memRead a.toNat) else none

/-- `Copy()` (60_exceptions.md R114): a Machine whose whole state equals this one's. A State is a value, so nothing
done to one copy can reach the other. -/
def State.copy (s : State) : State := s

/-- What a Program must be to be loaded: a sequence of Words no longer than the address space (70_reset_and_hazards.md
R126; 00_scope.md R9, the row of `L`). -/
def checkProgram (c : Config) (p : List Int) : Except HostError Unit :=
  match p.find? (fun v => decide (¬ c.inRange v)) with
  | some v => .error (.notAWord v)
  | none => if c.addrMax + 1 < p.length then .error .programTooLong else .ok ()

/-- `Construct(P)` (70_reset_and_hazards.md R126) under the parameters `c`. -/
def State.construct (c : Config) (p : List Int) : Except HostError State := do
  if ¬ c.legal then .error .illegalConfig
  checkProgram c p
  return {
    config := c
    mem := Memory.load 0 p
    imageLen := p.length
    pc := 0
    base := 0
    status := .paused
    fault := none
    input := []
    output := [] }

/-- `Reload(P, reload_ports)` (70_reset_and_hazards.md R127), in any status. -/
def State.reload (s : State) (p : List Int) (ports : ReloadPorts) : Except HostError State := do
  checkProgram s.config p
  return {
    config := s.config
    mem := Memory.load 0 p
    imageLen := p.length
    pc := 0
    base := 0
    status := .paused
    fault := none
    input := match ports with
      | .preserve => s.input
      | .clear => []
    output := match ports with
      | .preserve => s.output
      | .clear => [] }

/-- The host operations that can change a Machine (60_exceptions.md R108); the reads, the lengths and Copy change
nothing. -/
inductive HostCommand where
  | run (op : RunOp)
  | pushInput (v : Int)
  | pushAscii (cs : List Char)
  | popOutput
  | reload (p : List Int) (ports : ReloadPorts)
  deriving DecidableEq, Repr

/-- A refused operation changes nothing (60_exceptions.md R109, R110). -/
def State.orUnchanged (s : State) : Except HostError State → State
  | .ok t => t
  | .error _ => s

/-- `s.Does c t`: the host operation `c`, begun in `s`, ends in `t`. A run operation relates the state before it to the
state after it (60_exceptions.md R101) and has no `t` when it never returns (R102). -/
def State.Does (s : State) : HostCommand → State → Prop
  | .run op, t => ∃ fuel, run op fuel s = .returned t
  | .pushInput v, t => t = s.orUnchanged (s.pushInput v)
  | .pushAscii cs, t => t = s.orUnchanged (s.pushAscii cs)
  | .popOutput, t => t = s.popOutput.2
  | .reload p ports, t => t = s.orUnchanged (s.reload p ports)

end Sys2Proof.Machine
end

