-- ==== Sys2Proof/Machine/Drivers.lean ====
section
/-! DEFINITION. The composition drivers (60_exceptions.md R120 to R125): host-side software outside the block
(00_scope.md R7), over lists of independent Machines. What the spec leaves to the driver (91_not_in_source.md N24) is
an argument here or a choice of notes/assumptions/13.md. -/

namespace Sys2Proof.Machine

/-- Why a driver gives up. -/
inductive DriverError where
  /-- A host operation was refused. -/
  | refused (e : HostError)
  /-- A run operation, or the driver's own loop, spent its fuel. -/
  | outOfFuel
  /-- A Machine returned with nothing in its output Device, in this status. -/
  | noOutput (status : Status)
  deriving DecidableEq, Repr

/-- A host operation inside a driver. -/
def liftHost {α : Type} : Except HostError α → Except DriverError α
  | .ok x => .ok x
  | .error e => .error (.refused e)

/-- A run operation inside a driver. -/
def runFor (op : RunOp) (fuel : Nat) (s : State) : Except DriverError State :=
  match run op fuel s with
  | .returned t => .ok t
  | .outOfFuel => .error .outOfFuel

/-- Popping a word after checking that there is one (70_reset_and_hazards.md R136). -/
def popChecked (s : State) : Except DriverError (Word × State) :=
  match s.popOutput with
  | (some v, t) => .ok (v, t)
  | (none, _) => .error (.noOutput s.status)

/-- One Machine per phase, all loaded with the same Program, each with its phase pushed once (60_exceptions.md R122,
R123). -/
def loadPhases (c : Config) (p : List Int) (phases : List Word) : Except DriverError (List State) :=
  phases.mapM fun phase => do
    let s ← liftHost (State.construct c p)
    liftHost (s.pushInput phase)

/-- The Pipeline (60_exceptions.md R122): the shared value goes to the first Machine, each Machine's single output to
the next; the last output is the result. The run operation is the driver's. -/
def pipeline (op : RunOp) (fuel : Nat) : List State → Word → Except DriverError (List State × Word)
  | [], v => .ok ([], v)
  | s :: ms, v => do
    let s ← liftHost (s.pushInput v)
    let s ← runFor op fuel s
    let (v, s) ← popChecked s
    let (ms, last) ← pipeline op fuel ms v
    return (s :: ms, last)

/-- The words of an output Device, popped one at a time, and the Machine without them; one unit of fuel for each word. -/
def popAll : Nat → State → List Word × State
  | 0, s => ([], s)
  | fuel + 1, s =>
    match s.popOutput with
    | (none, _) => ([], s)
    | (some v, t) =>
      let (vs, u) := popAll fuel t
      (v :: vs, u)

/-- Pushing words, in order, to the Machine at position `k` (60_exceptions.md R120). -/
def pushAllAt (ms : List State) (k : Nat) (ws : List Word) : Except DriverError (List State) :=
  match ms[k]? with
  | none => .ok ms
  | some s => do
    let s ← liftHost (ws.foldlM State.pushInput s)
    return ms.set k s

/-- Visiting the Machine at position `k` of the feedback loop (60_exceptions.md R123): `runToOutput`, and each output it
produced moved to the next Machine, the last Machine's to the first. A Machine that returns without an output moves
nothing. The results are the words moved and whether the Machine halted. -/
def feedbackVisit (fuel : Nat) (ms : List State) (k : Nat) : Except DriverError (List State × List Word × Bool) :=
  match ms[k]? with
  | none => .ok (ms, [], false)
  | some s => do
    let s ← runFor .runToOutput fuel s
    let (made, s) := popAll s.outputLength s
    let ms ← pushAllAt (ms.set k s) ((k + 1) % ms.length) made
    return (ms, made, decide (s.status = .halted))

/-- Visits at these positions in order, until a Machine halts (60_exceptions.md R123). `tail` is the last value the tail
Machine, the one at the last position, has produced; the Bool says whether a Machine halted. -/
def feedbackRound (fuel : Nat) : List Nat → List State → Option Word →
    Except DriverError (List State × Option Word × Bool)
  | [], ms, tail => .ok (ms, tail, false)
  | k :: ks, ms, tail => do
    let (ms, made, halted) ← feedbackVisit fuel ms k
    let tail := if k + 1 = ms.length then made.getLast?.or tail else tail
    if halted then return (ms, tail, true) else feedbackRound fuel ks ms tail

/-- Rounds in fixed round-robin order until a Machine halts (60_exceptions.md R123), with one unit of fuel for each; a
loop in which no Machine halts has no result. -/
def feedbackRounds (fuel : Nat) : Nat → List State → Option Word → Except DriverError (List State × Option Word)
  | 0, _, _ => .error .outOfFuel
  | rounds + 1, ms, tail => do
    let (ms, tail, halted) ← feedbackRound fuel (List.range ms.length) ms tail
    if halted then return (ms, tail) else feedbackRounds fuel rounds ms tail

/-- The feedback loop (60_exceptions.md R123) over Machines that have their phases: the signal goes to the first, and the
result is the last value the tail Machine produced before a Machine halted, `none` when it produced none. -/
def feedbackLoop (fuel rounds : Nat) (ms : List State) (signal : Word) :
    Except DriverError (List State × Option Word) := do
  let ms ← pushAllAt ms 0 [signal]
  feedbackRounds fuel rounds ms none

/-! ## The broadcast network (60_exceptions.md R124, R125) -/

/-- A packet: an output triple (60_exceptions.md R124). -/
structure Packet where
  destination : Word
  x : Word
  y : Word
  deriving DecidableEq, Repr

/-- Which part of a packet is the NAT's "resumption value" (60_exceptions.md R125; 91_not_in_source.md N24, 4). -/
inductive ResumeKey where
  | x
  | y
  | pair
  deriving DecidableEq, Repr

/-- The driver's own parameters (00_scope.md R9, 91_not_in_source.md N24). -/
structure NetworkParams where
  /-- The word fed to a Machine blocked on IN. -/
  sentinel : Word
  /-- The run operation of a visit. -/
  op : RunOp
  /-- What the NAT compares. -/
  resumeKey : ResumeKey
  deriving DecidableEq, Repr

/-- The network under its driver: the Machines, addressed by their position, and the NAT. -/
structure Network where
  machines : List State
  /-- The NAT's last-received packet. -/
  nat : Option Packet
  /-- The packet the NAT injected last. -/
  lastInjected : Option Packet
  /-- Idle has been signalled and no packet has been routed since (60_exceptions.md R125). -/
  idleSignalled : Bool
  deriving DecidableEq, Repr

/-- The position of the Machine a packet is for; `none` when the destination is outside the normal address range
(60_exceptions.md R124). -/
def machineAt (count : Nat) (destination : Word) : Option Nat :=
  if 0 ≤ destination ∧ destination < count then some destination.toNat else none

/-- Routing one packet (60_exceptions.md R124): `x` and then `y` to the addressed Machine, or the packet to the NAT. -/
def route (net : Network) (p : Packet) : Except DriverError Network :=
  match machineAt net.machines.length p.destination with
  | none => .ok { net with nat := some p }
  | some k =>
    match net.machines[k]? with
    | none => .ok { net with nat := some p }
    | some s => do
      let s ← liftHost (s.pushInput p.x)
      let s ← liftHost (s.pushInput p.y)
      return { net with machines := net.machines.set k s }

/-- The whole triples at the front of an output Device, and the Machine without them (60_exceptions.md R124). -/
def takePackets : Nat → State → List Packet × State
  | 0, s => ([], s)
  | fuel + 1, s =>
    match s.output with
    | d :: x :: y :: rest =>
      let (ps, t) := takePackets fuel { s with output := rest }
      (⟨d, x, y⟩ :: ps, t)
    | _ => ([], s)

/-- Visiting the Machine at position `k` (60_exceptions.md R124): the sentinel if it is stalled on IN with no input, a
run operation, and its packets routed. The count is of the packets routed. WHEN in a tick a stalled Machine is fed and
WHEN a packet is routed are the model's choices (DESIGN CHOICE, notes/assumptions/13.md): one sentinel, at the Machine's
next visit, before that visit's run; and a Machine's packets right after its own run, so that a Machine visited later in
the same pass already has their words and gets no sentinel. -/
def visit (params : NetworkParams) (fuel : Nat) (net : Network) (k : Nat) : Except DriverError (Network × Nat) :=
  match net.machines[k]? with
  | none => .ok (net, 0)
  | some s => do
    let s ← if s.status = .pendingInput ∧ s.inEmpty then liftHost (s.pushInput params.sentinel) else .ok s
    let s ← runFor params.op fuel s
    let (packets, s) := takePackets s.outputLength s
    let net ← packets.foldlM route { net with machines := net.machines.set k s }
    return (net, packets.length)

/-- One full pass in fixed round-robin order, counting the packets routed (60_exceptions.md R124). -/
def pass (params : NetworkParams) (fuel : Nat) (net : Network) : Except DriverError (Network × Nat) :=
  (List.range net.machines.length).foldlM
    (fun (acc : Network × Nat) k => do
      let (net, n) ← visit params fuel acc.1 k
      return (net, acc.2 + n))
    (net, 0)

/-- Every Machine is stalled on IN (60_exceptions.md R125). -/
def allStalled (ms : List State) : Bool := ms.all fun s => decide (s.status = .pendingInput)

/-- Two packets carry the same resumption value (60_exceptions.md R125). -/
def sameResumption (key : ResumeKey) (p q : Packet) : Bool :=
  match key with
  | .x => decide (p.x = q.x)
  | .y => decide (p.y = q.y)
  | .pair => decide (p.x = q.x ∧ p.y = q.y)

/-- What a tick of the network driver ends in. -/
inductive TickResult where
  /-- The driver goes on; `idle` says that idle was signalled in this tick. -/
  | goesOn (idle : Bool) (net : Network)
  /-- The NAT delivered the same resumption value twice in a row: steady state. -/
  | steadyState (resumption : Packet) (net : Network)
  deriving DecidableEq, Repr

/-- One tick (60_exceptions.md R124, R125): a pass; then, when every Machine is stalled and no packet was routed, idle is
signalled once, and the NAT injects its last packet into Machine 0, ending the loop when it repeats the value before. Idle
BEFORE the NAT has received any packet is signalled and injects nothing: the model's choice (DESIGN CHOICE,
notes/assumptions/13.md). -/
def tick (params : NetworkParams) (fuel : Nat) (net : Network) : Except DriverError TickResult := do
  let (after, routed) ← pass params fuel net
  if routed ≠ 0 then return .goesOn false { after with idleSignalled := false }
  else if allStalled after.machines = false ∨ after.idleSignalled = true then return .goesOn false after
  else
    match after.nat with
    | none => return .goesOn true { after with idleSignalled := true }
    | some p =>
      let injected ← route { after with idleSignalled := true, lastInjected := some p } { p with destination := 0 }
      match after.lastInjected with
      | none => return .goesOn true injected
      | some q => if sameResumption params.resumeKey p q then return .steadyState p injected else return .goesOn true injected

end Sys2Proof.Machine
end

