-- ==== Sys2Proof/Machine/Loader.lean ====
section
/-! DEFINITION. The program loader (70_reset_and_hazards.md R129 to R131): host-side software outside the block, over a
text as a list of characters. It checks syntax and range only. -/

namespace Sys2Proof.Machine

/-- `LoadError(i)` (70_reset_and_hazards.md R129): the integer that starts at index `i` is not a Word. -/
structure LoadError where
  index : Nat
  deriving DecidableEq, Repr

/-- A decimal digit '0' to '9'. -/
def isDecimal (c : Char) : Bool := decide (48 ≤ c.toNat ∧ c.toNat ≤ 57)

/-- The number a run of decimal digits stands for; leading zeros are allowed (70_reset_and_hazards.md R129). -/
def decimalValue (ds : List Char) : Nat := ds.foldl (fun n c => 10 * n + (c.toNat - 48)) 0

/-- The integer at the front of a text, `-`? followed by one or more digits, and the text after it; `none` where there
is no integer (70_reset_and_hazards.md R129). -/
def nextInteger (text : List Char) : Option (Int × List Char) :=
  let negative := text.head? = some '-'
  let body := if negative then text.tail else text
  let digits := body.takeWhile isDecimal
  if digits = [] then none
  else some (if negative then -(decimalValue digits : Int) else (decimalValue digits : Int), body.dropWhile isDecimal)

/-- The loop of `Load`, from index `i` of the text, with one unit of fuel for each integer. -/
def loadFrom (c : Config) : Nat → Nat → List Char → Except LoadError (List Word)
  | 0, _, _ => .ok []
  | fuel + 1, i, text =>
    match nextInteger text with
    | none => .ok []
    | some (v, rest) =>
      if c.inRange v then
        match rest with
        | ',' :: more => (loadFrom c fuel (i + (text.length - more.length)) more).map (v :: ·)
        | _ => .ok [v]
      else .error ⟨i⟩

/-- `Load(text)` (70_reset_and_hazards.md R129). Every integer but the first follows a comma of its own, so the text's
length and one more is fuel enough. -/
def load (c : Config) (text : List Char) : Except LoadError (List Word) := loadFrom c (text.length + 1) 0 text

/-- The decimal digits of a number, most significant first, with fuel for each digit. -/
def digitsWithin : Nat → Nat → List Char
  | 0, _ => []
  | fuel + 1, n =>
    if n < 10 then [Char.ofNat (48 + n)] else digitsWithin fuel (n / 10) ++ [Char.ofNat (48 + n % 10)]

/-- A Word in decimal, with a leading `-` when it is negative (70_reset_and_hazards.md R130). -/
def decimalText (v : Word) : List Char :=
  if v < 0 then '-' :: digitsWithin (v.natAbs + 1) v.natAbs else digitsWithin (v.natAbs + 1) v.natAbs

/-- `toText(P)` (70_reset_and_hazards.md R130): each Word in decimal, joined by `,` with no spaces. -/
def toText : List Word → List Char
  | [] => []
  | [v] => decimalText v
  | v :: w :: ws => decimalText v ++ ',' :: toText (w :: ws)

end Sys2Proof.Machine
end

