-- ==== Sys2Proof/Safety.lean ====
section
/-! DEFINITION. What holds of every Machine between host operations, in the terms the statements use. -/

namespace Sys2Proof.Machine

/-- The invariant of a Machine's state: what 10_state.md says each piece of state is. -/
structure State.Inv (s : State) : Prop where
  /-- `WORD_BITS >= 64` (00_scope.md R9). -/
  configLegal : s.config.legal = true
  /-- The memory is in canonical form (notes/assumptions/2.md). -/
  memCanonical : Memory.wf s.mem = true
  /-- Every listed cell has a legal address and holds a Word (10_state.md R27). -/
  memWords : ∀ c ∈ s.mem, c.1 ≤ s.config.addrMax ∧ s.config.inRange c.2
  /-- `0 <= L <= ADDR_MAX + 1` (00_scope.md R9). -/
  imageFits : s.imageLen ≤ s.config.addrMax + 1
  /-- `0 <= pc <= ADDR_MAX` (10_state.md R19, R21). -/
  pcInSpace : s.pc ≤ s.config.addrMax
  /-- `base` is a Word (10_state.md R22). -/
  baseWord : s.config.inRange s.base
  /-- The input Device holds Words (10_state.md R29). -/
  inputWords : ∀ v ∈ s.input, s.config.inRange v
  /-- The output Device holds Words (10_state.md R29). -/
  outputWords : ∀ v ∈ s.output, s.config.inRange v
  /-- The fault record is set exactly in status Faulted (10_state.md R26). -/
  faultRecorded : s.status = .faulted ↔ s.fault ≠ none
  /-- The recorded pc is an address (10_state.md R26). -/
  faultPcInSpace : ∀ r, s.fault = some r → r.fpc ≤ s.config.addrMax

/-- A state the host can see: the status is not Running (10_state.md R25). -/
def State.hostVisible (s : State) : Bool := decide (s.status ≠ .running)

/-- Status PendingInput means blocked at an IN: the instruction at pc is an IN whose destination resolves
(41_io.md R78, 60_exceptions.md R93, R95). Every step and host operation keeps it (`PendingMeansBlockedAtIn`). -/
def State.BlockedAtIn (s : State) : Prop :=
  s.status = .pendingInput → ∃ d a, s.fetchInstr = .ok (.inp d) ∧ s.destAddress d = .ok a

/-- A step is safe when it does not end in a fault of the machine (60_exceptions.md R86). -/
def State.stepsSafely (s : State) : Prop := ∃ t, step s = .next t ∧ t.status ≠ .faulted

end Sys2Proof.Machine
end

