-- ==== Sys2Proof/Certificates/Slice0/Obligations.lean ====
section
/-! DEFINITION. The statements for the provers. Each docstring names the rule of spec/ it formalises, or says what it
rests on. "Faulted with `r`" below is the state with only status and fault record changed (60_exceptions.md R87). -/

open Sys2Proof Sys2Proof.Machine

/-! ## Construction, reset and reload -/

/-- 70_reset_and_hazards.md R126: what Construct leaves, for every Program of Words that fits, and that nothing else is
constructed from. -/
def Obligations.ConstructedMachineValues : Prop :=
  ∀ (c : Config) (p : List Int),
    (c.legal = true → (∀ v ∈ p, c.inRange v) → p.length ≤ c.addrMax + 1 →
      ∃ s, State.construct c p = .ok s ∧ s.config = c ∧ s.imageLen = p.length ∧
        (∀ a, s.memRead a = p.getD a 0) ∧ s.pc = 0 ∧ s.base = 0 ∧ s.status = .paused ∧
        s.fault = none ∧ s.input = [] ∧ s.output = []) ∧
    (∀ v ∈ p, ¬ c.inRange v → ∀ s, State.construct c p ≠ .ok s)

/-- 70_reset_and_hazards.md R127: what Reload leaves, from any state, and what becomes of the Devices. -/
def Obligations.ReloadedMachineValues : Prop :=
  ∀ (s : State) (p : List Int) (ports : ReloadPorts), (∀ v ∈ p, s.config.inRange v) →
    p.length ≤ s.config.addrMax + 1 →
    ∃ t, s.reload p ports = .ok t ∧ t.config = s.config ∧ t.imageLen = p.length ∧
      (∀ a, t.memRead a = p.getD a 0) ∧ t.pc = 0 ∧ t.base = 0 ∧ t.status = .paused ∧ t.fault = none ∧
      (ports = .preserve → t.input = s.input ∧ t.output = s.output) ∧
      (ports = .clear → t.input = [] ∧ t.output = [])

/-- The reset state is the one constructed from the empty Program under the default parameters: the MODEL's choice of
Program (notes/assumptions/3.md), with the register values of 10_state.md R32. -/
def Obligations.ResetIsTheEmptyMachine : Prop :=
  State.construct Config.standard [] = .ok State.reset ∧ State.reset.pc = 0 ∧ State.reset.base = 0 ∧
    State.reset.status = .paused ∧ State.reset.fault = none ∧ State.reset.input = [] ∧ State.reset.output = [] ∧
    ∀ a, State.reset.memRead a = 0

/-- The invariants hold right after reset and after every Construct. State.reset is Construct of the empty Program, the
MODEL's choice (notes/assumptions/3.md), and that memory is in canonical form is the model's own form of it
(notes/assumptions/2.md). -/
def Obligations.ResetMeetsInvariant : Prop :=
  (State.reset.Inv ∧ State.reset.hostVisible = true ∧ State.reset.BlockedAtIn) ∧
    ∀ (c : Config) (p : List Int) (s : State), State.construct c p = .ok s →
      s.Inv ∧ s.hostVisible = true ∧ s.BlockedAtIn

/-- 70_reset_and_hazards.md R128, with 60_exceptions.md R111's exception that PopOutput may move Halted to Faulted: of the
host's operations on a Machine only Reload leaves the terminal statuses. -/
def Obligations.OnlyReloadLeavesTerminal : Prop :=
  ∀ (s t : State) (c : HostCommand), s.status.terminal = true → s.Does c t → t.status.terminal = false →
    ∃ p ports, c = .reload p ports

/-! ## Memory and the instruction stream -/

/-- A canonical memory is determined by what its cells read: no behaviour can depend on which entries exist
(10_state.md R28). -/
def Obligations.CanonicalMemoriesAgree : Prop :=
  ∀ m n : Memory, Memory.wf m = true → Memory.wf n = true → (∀ a, m.read a = n.read a) → m = n

/-- 20_memory.md R38: the instruction-stream read, case by case. -/
def Obligations.InstructionStreamRead : Prop :=
  ∀ (s : State) (a : Nat),
    (s.config.addrMax < a → s.fetch a = .error ⟨.overflow, a⟩) ∧
    (a ≤ s.config.addrMax → s.imageLen ≤ a → s.config.fetchBeyondImage = .fault →
      s.fetch a = .error ⟨.fetchOutOfImage, a⟩) ∧
    (a ≤ s.config.addrMax → a < s.imageLen ∨ s.config.fetchBeyondImage = .sparse → s.fetch a = .ok (s.memRead a))

/-- 20_memory.md R50's first sentences: a write is seen by every later fetch, with nothing in between. -/
def Obligations.FetchSeesEveryWrite : Prop :=
  ∀ (s : State) (a b : Nat) (v w : Word), Memory.wf s.mem = true → s.fetch b = .ok w →
    (s.memWrite a v).fetch b = .ok (if b = a then v else w)

/-! ## Addressing -/

/-- 20_memory.md R40: effective addresses, source operands and destinations, in every mode and for every parameter. -/
def Obligations.AddressingModes : Prop :=
  ∀ (s : State) (p : Word),
    s.readOperand (.immediate p) = .ok p ∧
    ∀ (o : Source) (d : Destination) (a : Int),
      (o = .position p ∧ d = .position p ∧ a = p) ∨ (o = .relative p ∧ d = .relative p ∧ a = s.base + p) →
      (¬ s.config.inRange a → s.readOperand o = .error ⟨.overflow, a⟩ ∧ s.destAddress d = .error ⟨.overflow, a⟩) ∧
      (s.config.inRange a → a < 0 →
        s.readOperand o = .error ⟨.negativeAddress, a⟩ ∧ s.destAddress d = .error ⟨.negativeAddress, a⟩) ∧
      (0 ≤ a → a ≤ s.config.wordMax →
        s.readOperand o = .ok (s.memRead a.toNat) ∧ s.destAddress d = .ok a.toNat)

/-- 20_memory.md R43: position and relative mode reach the same cells, before and after a write. -/
def Obligations.ModesReachTheSameCells : Prop :=
  ∀ (s : State) (a : Nat), s.config.inRange ((a : Int) - s.base) →
    s.readOperand (.position a) = s.readOperand (.relative ((a : Int) - s.base)) ∧
    ∀ v, Memory.wf s.mem = true → a ≤ s.config.addrMax →
      (s.memWrite a v).readOperand (.relative ((a : Int) - s.base)) = .ok v

/-! ## Encoding -/

/-- 30_encoding.md R72: the decoding examples, the legal and the illegal ones, for all parameters. -/
def Obligations.DecodingExamples : Prop :=
  ∀ p1 p2 p3 : Word,
    decode [1, p1, p2, p3] = .ok (.add (.position p1) (.position p2) (.position p3), []) ∧
    decode [1002, p1, p2, p3] = .ok (.mul (.position p1) (.immediate p2) (.position p3), []) ∧
    decode [109, p1] = .ok (.adj (.immediate p1), []) ∧
    decode [204, p1] = .ok (.out (.relative p1), []) ∧
    decode [1006, p1, p2] = .ok (.jz (.position p1) (.immediate p2), []) ∧
    decode [21101, p1, p2, p3] = .ok (.add (.immediate p1) (.immediate p2) (.relative p3), []) ∧
    decode [203, p1] = .ok (.inp (.relative p1), []) ∧
    decode [11101, p1, p2, p3] = .error (.illegal .immediateDestination) ∧
    decode [103, p1] = .error (.illegal .immediateDestination) ∧
    decode [301, p1, p2, p3] = .error (.illegal .illegalMode) ∧
    decode [1104, p1] = .error (.illegal .illegalMode) ∧
    decode [0] = .error (.illegal .unknownOpcode) ∧
    decode [-1] = .error (.illegal .unknownOpcode)

/-- Decoding an encoded instruction gives it back, whatever follows it (30_encoding.md R54, R57, R59). -/
def Obligations.DecodeOfEncode : Prop :=
  ∀ (i : Instr) (rest : List Word), decode (encode i ++ rest) = .ok (i, rest)

/-- Only the encoding of an instruction decodes to it: no two words mean the same (30_encoding.md R54, R68). -/
def Obligations.EncodeOfDecode : Prop :=
  ∀ (ws rest : List Word) (i : Instr), decode ws = .ok (i, rest) → ws = encode i ++ rest

/-- 30_encoding.md R69: the legal instruction words, written out by opcode and modes, and that there are 99. -/
def Obligations.LegalInstructionWords : Prop :=
  (∀ w p1 p2 p3 : Word, (∃ i rest, decode [w, p1, p2, p3] = .ok (i, rest)) ↔
    (∃ k m1 m2 m3 : Int, (k = 1 ∨ k = 2 ∨ k = 7 ∨ k = 8) ∧ (m1 = 0 ∨ m1 = 1 ∨ m1 = 2) ∧
      (m2 = 0 ∨ m2 = 1 ∨ m2 = 2) ∧ (m3 = 0 ∨ m3 = 2) ∧ w = k + 100 * m1 + 1000 * m2 + 10000 * m3) ∨
    (∃ k m1 m2 : Int, (k = 5 ∨ k = 6) ∧ (m1 = 0 ∨ m1 = 1 ∨ m1 = 2) ∧ (m2 = 0 ∨ m2 = 1 ∨ m2 = 2) ∧
      w = k + 100 * m1 + 1000 * m2) ∨
    (∃ k m1 : Int, (k = 4 ∨ k = 9) ∧ (m1 = 0 ∨ m1 = 1 ∨ m1 = 2) ∧ w = k + 100 * m1) ∨
    w = 3 ∨ w = 203 ∨ w = 99) ∧
  ∃ ws : List Word, ws.length = 99 ∧ ws.Nodup ∧
    ∀ w, w ∈ ws ↔ ∃ i rest, decode [w, 0, 0, 0] = .ok (i, rest)

/-- 30_encoding.md R58, with R57's widths: the two low digits alone give the length, and the mode digits never change
it. -/
def Obligations.WidthFromOpcodeAlone : Prop :=
  ∀ (w : Word) (ws rest : List Word) (i : Instr), decode (w :: ws) = .ok (i, rest) →
    (w :: ws).length = i.width + rest.length ∧
    (w % 100 = 1 ∨ w % 100 = 2 ∨ w % 100 = 7 ∨ w % 100 = 8 → i.width = 4) ∧
    (w % 100 = 5 ∨ w % 100 = 6 → i.width = 3) ∧
    (w % 100 = 3 ∨ w % 100 = 4 ∨ w % 100 = 9 → i.width = 2) ∧
    (w % 100 = 99 → i.width = 1)

/-- 30_encoding.md R62 and R63: a negative word or an unknown opcode faults `UnknownOpcode` with the word as `info`. -/
def Obligations.UnknownOpcodesFault : Prop :=
  ∀ (s : State) (w : Word), s.status.terminal = false → s.fetch s.pc = .ok w →
    (w < 0 ∨ ¬ (1 ≤ w % 100 ∧ w % 100 ≤ 9 ∨ w % 100 = 99)) →
    step s = .next { s with status := .faulted, fault := some ⟨.unknownOpcode, s.pc, w⟩ }

/-- 30_encoding.md R64, R65 and R66: an illegal mode digit, a digit for an absent parameter, or a word of 100000 or more
faults `IllegalMode` with the word as `info`, for every known opcode. -/
def Obligations.IllegalModesFault : Prop :=
  ∀ (s : State) (w : Word) (op : Opcode), s.status.terminal = false → s.fetch s.pc = .ok w → 0 ≤ w →
    Opcode.ofNumber (w.toNat % 100) = some op →
    (100000 ≤ w ∨ ∃ k, 1 ≤ k ∧ k ≤ 3 ∧
      ((k ≤ op.nparams ∧ 3 ≤ digit (k + 1) w.toNat) ∨ (op.nparams < k ∧ digit (k + 1) w.toNat ≠ 0))) →
    step s = .next { s with status := .faulted, fault := some ⟨.illegalMode, s.pc, w⟩ }

/-- 30_encoding.md R67: a destination in mode 1 faults `ImmediateDestination` with the word as `info`, whatever the
operands are. -/
def Obligations.ImmediateDestinationsFault : Prop :=
  ∀ (s : State) (w : Word), s.status.terminal = false → s.fetch s.pc = .ok w →
    (∃ k m1 m2 : Int, (k = 1 ∨ k = 2 ∨ k = 7 ∨ k = 8) ∧ (m1 = 0 ∨ m1 = 1 ∨ m1 = 2) ∧ (m2 = 0 ∨ m2 = 1 ∨ m2 = 2) ∧
      w = k + 100 * m1 + 1000 * m2 + 10000 ∧
      ∃ p1 p2 p3, s.fetch (s.pc + 1) = .ok p1 ∧ s.fetch (s.pc + 2) = .ok p2 ∧ s.fetch (s.pc + 3) = .ok p3) ∨
    (w = 103 ∧ ∃ p1, s.fetch (s.pc + 1) = .ok p1) →
    step s = .next { s with status := .faulted, fault := some ⟨.immediateDestination, s.pc, w⟩ }

/-- 60_exceptions.md R89, stages 1 and 5 with 30_encoding.md R59: a fetch that fails is the fault, the first of them in
order, and it comes before the immediate destination is looked at. -/
def Obligations.FetchFaultOrder : Prop :=
  ∀ (s : State) (r : Raised), s.status.terminal = false →
    (s.fetch s.pc = .error r →
      step s = .next { s with status := .faulted, fault := some ⟨r.cause, s.pc, r.info⟩ }) ∧
    ∀ (w : Word) (h : Header) (k : Nat), s.fetch s.pc = .ok w → decodeHeader w = .ok h → 1 ≤ k → k ≤ h.op.nparams →
      (∀ j, 1 ≤ j → j < k → ∃ p, s.fetch (s.pc + j) = .ok p) → s.fetch (s.pc + k) = .error r →
      step s = .next { s with status := .faulted, fault := some ⟨r.cause, s.pc, r.info⟩ }

/-! ## The step -/

/-- A step runs the decoded instruction: when the Words of `i` are what the instruction stream holds at pc, `step` is
`exec i` with the status Running (60_exceptions.md R94, R97; notes/assumptions/6.md). -/
def Obligations.StepRunsTheDecodedInstruction : Prop :=
  ∀ (s : State) (i : Instr), s.status.terminal = false →
    (∀ k w, (encode i)[k]? = some w → s.fetch (s.pc + k) = .ok w) →
    step s = exec i { s with status := .running }

/-- Every step answers a next state: nothing is refused and no fault of the machine stops the model
(notes/assumptions/5.md). -/
def Obligations.EveryStepAnswersNext : Prop := ∀ s : State, ∃ t, step s = .next t

/-- In status PendingInput the instruction at pc is an IN whose destination resolves: every step leaves it so, and every
host operation keeps it so (41_io.md R78, 60_exceptions.md R93, R95). That a refused Reload leaves the Machine unchanged
is the MODEL's choice (notes/assumptions/10.md). -/
def Obligations.PendingMeansBlockedAtIn : Prop :=
  (∀ s t : State, step s = .next t → t.BlockedAtIn) ∧
  (∀ (s t : State) (c : HostCommand), s.BlockedAtIn → s.Does c t → t.BlockedAtIn)

/-- 60_exceptions.md R96: run operations do nothing in Halted and Faulted, and nothing visible from PendingInput while the
input Device is still empty. `BlockedAtIn` is the invariant of `PendingMeansBlockedAtIn`: it rules out states that no
operation of the host and no step leaves. -/
def Obligations.RunsThatChangeNothing : Prop :=
  (∀ (op : RunOp) (fuel : Nat) (s : State), s.status = .halted ∨ s.status = .faulted →
    run op fuel s = .returned s ∧ step s = .next s) ∧
  (∀ (op : RunOp) (fuel : Nat) (s : State), s.BlockedAtIn → s.status = .pendingInput → s.input = [] →
    run op (fuel + 1) s = .returned s ∧ step s = .next s)

/-- 60_exceptions.md R87: a step that ends in Faulted changed only the status and the fault record, whose pc is the
faulting instruction's address. -/
def Obligations.FaultsArePrecise : Prop :=
  ∀ s t : State, s.status.terminal = false → step s = .next t → t.status = .faulted →
    ∃ (cause : FaultCause) (info : Int), t = { s with status := .faulted, fault := some ⟨cause, s.pc, info⟩ }

/-- Every step keeps the invariant: memory in range, pc in the address space, base and Devices Words, the fault record set
exactly in Faulted (10_state.md R19, R21, R22, R26, R27, R29), and memory in canonical form, which is the MODEL's own form
of it and no rule's (notes/assumptions/2.md). -/
def Obligations.StepKeepsInvariant : Prop := ∀ s t : State, s.Inv → step s = .next t → t.Inv

/-- Every host operation keeps the invariant, the parameters, and a status the host may see. That a refused Reload leaves
the Machine unchanged is the MODEL's choice (notes/assumptions/10.md), and so is the invariant's canonical form of memory
(notes/assumptions/2.md). -/
def Obligations.HostCommandsKeepInvariant : Prop :=
  ∀ (s t : State) (c : HostCommand), s.Inv → s.hostVisible = true → s.Does c t →
    t.Inv ∧ t.hostVisible = true ∧ t.config = s.config

/-- Which status a step ends in, for a state in which it executes: Halted exactly at an HLT whose pc can advance,
PendingInput exactly at an IN that resolves its destination and finds no input, Running never
(41_io.md R78, 42_control.md R83, 60_exceptions.md R93, R95, R97). -/
def Obligations.StatusAfterAStep : Prop :=
  ∀ s t : State, s.status.terminal = false → step s = .next t →
    (t.status = .halted ↔ s.fetchInstr = .ok .hlt ∧ s.pc + 1 ≤ s.config.addrMax) ∧
    (t.status = .pendingInput ↔ ∃ d a, s.fetchInstr = .ok (.inp d) ∧ s.destAddress d = .ok a ∧ s.input = []) ∧
    t.status ≠ .running

/-- Only ADJ changes the relative base (10_state.md R22). -/
def Obligations.OnlyAdjChangesBase : Prop :=
  ∀ s t : State, step s = .next t → t.base ≠ s.base → ∃ a, s.fetchInstr = .ok (.adj a)

/-- A program reaches the Devices only by IN and OUT: one word off the front of the input, or one resolved word at the
back of the output (10_state.md R29, 60_exceptions.md R117). -/
def Obligations.DevicesOnlyByInAndOut : Prop :=
  ∀ s t : State, step s = .next t →
    (t.input ≠ s.input → ∃ d v, s.fetchInstr = .ok (.inp d) ∧ s.input = v :: t.input) ∧
    (t.output ≠ s.output → ∃ a v, s.fetchInstr = .ok (.out a) ∧ s.readOperand a = .ok v ∧ t.output = s.output ++ [v])

/-! ## The instructions -/

/-- ADD (40_alu.md, ADD): the exact sum at the destination, or `Overflow` with the exact value. -/
def Obligations.AddResult : Prop :=
  ∀ (s : State) (a b : Source) (d : Destination) (va vb : Word) (x : Nat), s.readOperand a = .ok va →
    s.readOperand b = .ok vb → s.destAddress d = .ok x →
    (s.config.inRange (va + vb) → s.pc + 4 ≤ s.config.addrMax →
      exec (.add a b d) s = .next { s with mem := s.mem.write x (va + vb), pc := s.pc + 4, status := .paused }) ∧
    (¬ s.config.inRange (va + vb) →
      exec (.add a b d) s = .next { s with status := .faulted, fault := some ⟨.overflow, s.pc, va + vb⟩ }) ∧
    (s.config.inRange (va + vb) → s.config.addrMax < s.pc + 4 →
      exec (.add a b d) s =
        .next { s with status := .faulted, fault := some ⟨.overflow, s.pc, ((s.pc + 4 : Nat) : Int)⟩ })

/-- MUL (40_alu.md, MUL): the exact product at the destination, or `Overflow` with the exact value. -/
def Obligations.MulResult : Prop :=
  ∀ (s : State) (a b : Source) (d : Destination) (va vb : Word) (x : Nat), s.readOperand a = .ok va →
    s.readOperand b = .ok vb → s.destAddress d = .ok x →
    (s.config.inRange (va * vb) → s.pc + 4 ≤ s.config.addrMax →
      exec (.mul a b d) s = .next { s with mem := s.mem.write x (va * vb), pc := s.pc + 4, status := .paused }) ∧
    (¬ s.config.inRange (va * vb) →
      exec (.mul a b d) s = .next { s with status := .faulted, fault := some ⟨.overflow, s.pc, va * vb⟩ }) ∧
    (s.config.inRange (va * vb) → s.config.addrMax < s.pc + 4 →
      exec (.mul a b d) s =
        .next { s with status := .faulted, fault := some ⟨.overflow, s.pc, ((s.pc + 4 : Nat) : Int)⟩ })

/-- LT (40_alu.md, LT): 1 or 0 at the destination by the signed comparison, which never faults itself. -/
def Obligations.LtResult : Prop :=
  ∀ (s : State) (a b : Source) (d : Destination) (va vb : Word) (x : Nat), s.readOperand a = .ok va →
    s.readOperand b = .ok vb → s.destAddress d = .ok x →
    (s.pc + 4 ≤ s.config.addrMax → va < vb →
      exec (.lt a b d) s = .next { s with mem := s.mem.write x 1, pc := s.pc + 4, status := .paused }) ∧
    (s.pc + 4 ≤ s.config.addrMax → vb ≤ va →
      exec (.lt a b d) s = .next { s with mem := s.mem.write x 0, pc := s.pc + 4, status := .paused }) ∧
    (s.config.addrMax < s.pc + 4 →
      exec (.lt a b d) s =
        .next { s with status := .faulted, fault := some ⟨.overflow, s.pc, ((s.pc + 4 : Nat) : Int)⟩ })

/-- EQ (40_alu.md, EQ): 1 or 0 at the destination by equality, which never faults itself. -/
def Obligations.EqResult : Prop :=
  ∀ (s : State) (a b : Source) (d : Destination) (va vb : Word) (x : Nat), s.readOperand a = .ok va →
    s.readOperand b = .ok vb → s.destAddress d = .ok x →
    (s.pc + 4 ≤ s.config.addrMax → va = vb →
      exec (.eq a b d) s = .next { s with mem := s.mem.write x 1, pc := s.pc + 4, status := .paused }) ∧
    (s.pc + 4 ≤ s.config.addrMax → va ≠ vb →
      exec (.eq a b d) s = .next { s with mem := s.mem.write x 0, pc := s.pc + 4, status := .paused }) ∧
    (s.config.addrMax < s.pc + 4 →
      exec (.eq a b d) s =
        .next { s with status := .faulted, fault := some ⟨.overflow, s.pc, ((s.pc + 4 : Nat) : Int)⟩ })

/-- IN (41_io.md, IN): takes the front word, or blocks with nothing but the status changed; a fault of Advance consumes
no word. -/
def Obligations.InResult : Prop :=
  ∀ (s : State) (d : Destination) (x : Nat), s.destAddress d = .ok x →
    (∀ v rest, s.input = v :: rest → s.pc + 2 ≤ s.config.addrMax →
      exec (.inp d) s =
        .next { s with mem := s.mem.write x v, pc := s.pc + 2, input := rest, status := .paused }) ∧
    (s.input = [] → exec (.inp d) s = .next { s with status := .pendingInput }) ∧
    (s.input ≠ [] → s.config.addrMax < s.pc + 2 →
      exec (.inp d) s =
        .next { s with status := .faulted, fault := some ⟨.overflow, s.pc, ((s.pc + 2 : Nat) : Int)⟩ })

/-- OUT (41_io.md, OUT): the operand joins the output Device at the back; it never blocks. -/
def Obligations.OutResult : Prop :=
  ∀ (s : State) (a : Source) (v : Word), s.readOperand a = .ok v →
    (s.pc + 2 ≤ s.config.addrMax →
      exec (.out a) s = .next { s with output := s.output ++ [v], pc := s.pc + 2, status := .paused }) ∧
    (s.config.addrMax < s.pc + 2 →
      exec (.out a) s =
        .next { s with status := .faulted, fault := some ⟨.overflow, s.pc, ((s.pc + 2 : Nat) : Int)⟩ })

/-- JNZ (42_control.md, JNZ): taken on a non-zero operand, to a target that is not negative; else three words on, and
then the target is not looked at. -/
def Obligations.JnzResult : Prop :=
  ∀ (s : State) (a target : Source) (v w : Word), s.readOperand a = .ok v → s.readOperand target = .ok w →
    (v ≠ 0 → 0 ≤ w → exec (.jnz a target) s = .next { s with pc := w.toNat, status := .paused }) ∧
    (v ≠ 0 → w < 0 →
      exec (.jnz a target) s = .next { s with status := .faulted, fault := some ⟨.negativeAddress, s.pc, w⟩ }) ∧
    (v = 0 → s.pc + 3 ≤ s.config.addrMax →
      exec (.jnz a target) s = .next { s with pc := s.pc + 3, status := .paused }) ∧
    (v = 0 → s.config.addrMax < s.pc + 3 →
      exec (.jnz a target) s =
        .next { s with status := .faulted, fault := some ⟨.overflow, s.pc, ((s.pc + 3 : Nat) : Int)⟩ })

/-- JZ (42_control.md, JZ): JNZ with the condition reversed. -/
def Obligations.JzResult : Prop :=
  ∀ (s : State) (a target : Source) (v w : Word), s.readOperand a = .ok v → s.readOperand target = .ok w →
    (v = 0 → 0 ≤ w → exec (.jz a target) s = .next { s with pc := w.toNat, status := .paused }) ∧
    (v = 0 → w < 0 →
      exec (.jz a target) s = .next { s with status := .faulted, fault := some ⟨.negativeAddress, s.pc, w⟩ }) ∧
    (v ≠ 0 → s.pc + 3 ≤ s.config.addrMax →
      exec (.jz a target) s = .next { s with pc := s.pc + 3, status := .paused }) ∧
    (v ≠ 0 → s.config.addrMax < s.pc + 3 →
      exec (.jz a target) s =
        .next { s with status := .faulted, fault := some ⟨.overflow, s.pc, ((s.pc + 3 : Nat) : Int)⟩ })

/-- ADJ (43_base.md, ADJ): the exact sum of the old base and the operand, or `Overflow` with the exact value. -/
def Obligations.AdjResult : Prop :=
  ∀ (s : State) (a : Source) (v : Word), s.readOperand a = .ok v →
    (s.config.inRange (s.base + v) → s.pc + 2 ≤ s.config.addrMax →
      exec (.adj a) s = .next { s with base := s.base + v, pc := s.pc + 2, status := .paused }) ∧
    (¬ s.config.inRange (s.base + v) →
      exec (.adj a) s = .next { s with status := .faulted, fault := some ⟨.overflow, s.pc, s.base + v⟩ }) ∧
    (s.config.inRange (s.base + v) → s.config.addrMax < s.pc + 2 →
      exec (.adj a) s =
        .next { s with status := .faulted, fault := some ⟨.overflow, s.pc, ((s.pc + 2 : Nat) : Int)⟩ })

/-- HLT (42_control.md, HLT): pc one past it and the status Halted; `Overflow` at the top of the address space. -/
def Obligations.HltResult : Prop :=
  ∀ s : State,
    (s.pc + 1 ≤ s.config.addrMax → exec .hlt s = .next { s with pc := s.pc + 1, status := .halted }) ∧
    (s.config.addrMax < s.pc + 1 →
      exec .hlt s = .next { s with status := .faulted, fault := some ⟨.overflow, s.pc, ((s.pc + 1 : Nat) : Int)⟩ })

/-- Operands are resolved in parameter order, sources and destination alike, before anything else an instruction does,
and the first that fails is the fault (60_exceptions.md R89, stage 7; 41_io.md R78 for IN on an empty Device). -/
def Obligations.OperandFaultOrder : Prop :=
  ∀ (s : State) (r : Raised),
    (∀ (a b : Source) (d : Destination) (i : Instr),
      i = .add a b d ∨ i = .mul a b d ∨ i = .lt a b d ∨ i = .eq a b d →
      s.readOperand a = .error r ∨
        (∃ v, s.readOperand a = .ok v) ∧ s.readOperand b = .error r ∨
        (∃ v, s.readOperand a = .ok v) ∧ (∃ v, s.readOperand b = .ok v) ∧ s.destAddress d = .error r →
      exec i s = .next { s with status := .faulted, fault := some ⟨r.cause, s.pc, r.info⟩ }) ∧
    (∀ (a t : Source) (i : Instr), i = .jnz a t ∨ i = .jz a t →
      s.readOperand a = .error r ∨ (∃ v, s.readOperand a = .ok v) ∧ s.readOperand t = .error r →
      exec i s = .next { s with status := .faulted, fault := some ⟨r.cause, s.pc, r.info⟩ }) ∧
    (∀ (a : Source) (i : Instr), i = .out a ∨ i = .adj a → s.readOperand a = .error r →
      exec i s = .next { s with status := .faulted, fault := some ⟨r.cause, s.pc, r.info⟩ }) ∧
    (∀ d : Destination, s.destAddress d = .error r →
      exec (.inp d) s = .next { s with status := .faulted, fault := some ⟨r.cause, s.pc, r.info⟩ })

/-- 10_state.md R20: how each instruction moves pc when it does not fault. -/
def Obligations.PcAfterEachInstruction : Prop :=
  ∀ s t : State,
    (∀ (a b : Source) (d : Destination) (i : Instr),
      i = .add a b d ∨ i = .mul a b d ∨ i = .lt a b d ∨ i = .eq a b d → exec i s = .next t → t.status ≠ .faulted →
      t.pc = s.pc + 4) ∧
    (∀ d : Destination, exec (.inp d) s = .next t → t.status ≠ .faulted →
      (s.input ≠ [] → t.pc = s.pc + 2) ∧ (s.input = [] → t.pc = s.pc)) ∧
    (∀ (a : Source) (i : Instr), i = .out a ∨ i = .adj a → exec i s = .next t → t.status ≠ .faulted →
      t.pc = s.pc + 2) ∧
    (∀ (a target : Source) (i : Instr), i = .jnz a target ∨ i = .jz a target → exec i s = .next t →
      t.status ≠ .faulted →
      ∃ v w, s.readOperand a = .ok v ∧ s.readOperand target = .ok w ∧
        ((i = .jnz a target ↔ v ≠ 0) → (t.pc : Int) = w) ∧ (¬ (i = .jnz a target ↔ v ≠ 0) → t.pc = s.pc + 3)) ∧
    (exec .hlt s = .next t → t.status ≠ .faulted → t.pc = s.pc + 1)

/-- The frame of the instructions that store (ADD, MUL, LT, EQ, IN), whatever they end in: every cell but the
destination's reads as before, base and output Device are unchanged, the input Device loses at most its front word and
that only to IN, and the fault record changes only with a fault (10_state.md R18; 20_memory.md R46). -/
def Obligations.StoringFrame : Prop :=
  ∀ (s t : State) (d : Destination) (i : Instr),
    (∃ a b, i = .add a b d ∨ i = .mul a b d ∨ i = .lt a b d ∨ i = .eq a b d) ∨ i = .inp d →
    Memory.wf s.mem = true → exec i s = .next t →
    t.config = s.config ∧ t.imageLen = s.imageLen ∧ t.base = s.base ∧ t.output = s.output ∧
    (t.input = s.input ∨ i = .inp d ∧ ∃ v, s.input = v :: t.input) ∧
    (t.status ≠ .faulted → t.fault = s.fault) ∧
    (∀ x, s.destAddress d = .ok x → ∀ y, y ≠ x → t.memRead y = s.memRead y) ∧
    ((∀ x, s.destAddress d ≠ .ok x) → ∀ y, t.memRead y = s.memRead y)

/-- The frame of the instructions that store nothing (OUT, JNZ, JZ, ADJ, HLT), whatever they end in: every cell reads as
before, only ADJ changes base, only OUT the output Device (10_state.md R18; 20_memory.md R46). -/
def Obligations.NonStoringFrame : Prop :=
  ∀ (s t : State) (a target : Source) (i : Instr),
    i = .out a ∨ i = .jnz a target ∨ i = .jz a target ∨ i = .adj a ∨ i = .hlt → exec i s = .next t →
    t.config = s.config ∧ t.imageLen = s.imageLen ∧ t.mem = s.mem ∧ (∀ y, t.memRead y = s.memRead y) ∧
    t.input = s.input ∧ (t.status ≠ .faulted → t.fault = s.fault) ∧
    (i ≠ .adj a → t.base = s.base) ∧
    (t.output = s.output ∨ i = .out a ∧ ∃ v, s.readOperand a = .ok v ∧ t.output = s.output ++ [v])

/-! ## The run operations -/

/-- 10_state.md R25: no run operation ends in Running, so the host never reads it. -/
def Obligations.RunsNeverEndRunning : Prop :=
  ∀ (op : RunOp) (fuel : Nat) (s t : State), run op fuel s = .returned t →
    t.status = .paused ∨ t.status = .pendingInput ∨ t.status = .halted ∨ t.status = .faulted

/-- The run operation `step()` is the machine's step, one instruction (60_exceptions.md R97). -/
def Obligations.StepOperationIsTheStep : Prop :=
  ∀ (fuel : Nat) (s t : State), run .step (fuel + 1) s = .returned t ↔ step s = .next t

/-- `runToOutput` returns Paused exactly with one new output word, the others with none (60_exceptions.md R98, R105). -/
def Obligations.RunToOutputStops : Prop :=
  ∀ (fuel : Nat) (s t : State), s.status.terminal = false → run .runToOutput fuel s = .returned t →
    (t.status = .paused ∧ ∃ v, t.output = s.output ++ [v]) ∨
    ((t.status = .pendingInput ∨ t.status = .halted ∨ t.status = .faulted) ∧ t.output = s.output)

/-- `runToAnyIO` returns Paused exactly after one OUT or one consuming IN, the first I/O of the run
(60_exceptions.md R99, R105). -/
def Obligations.RunToAnyIOStops : Prop :=
  ∀ (fuel : Nat) (s t : State), s.status.terminal = false → run .runToAnyIO fuel s = .returned t →
    (t.status = .paused ∧ (∃ v, t.output = s.output ++ [v]) ∧ t.input = s.input) ∨
    (t.status = .paused ∧ t.output = s.output ∧ ∃ v, s.input = v :: t.input) ∨
    ((t.status = .pendingInput ∨ t.status = .halted ∨ t.status = .faulted) ∧ t.output = s.output ∧ t.input = s.input)

/-- `runToCompletion` returns only when it halts, blocks or faults, and the words it consumed and produced went through
the Devices in order (60_exceptions.md R100, R105; 20_memory.md R48). -/
def Obligations.RunToCompletionStops : Prop :=
  ∀ (fuel : Nat) (s t : State), s.status.terminal = false → run .runToCompletion fuel s = .returned t →
    (t.status = .pendingInput ∧ t.input = [] ∨ t.status = .halted ∨ t.status = .faulted) ∧
    (∃ taken, s.input = taken ++ t.input) ∧ ∃ made, t.output = s.output ++ made

/-- More fuel never changes what a run operation returns (60_exceptions.md R101, R121; notes/assumptions/7.md). -/
def Obligations.MoreFuelSameReturn : Prop :=
  ∀ (op : RunOp) (n m : Nat) (s t : State), run op n s = .returned t → n ≤ m → run op m s = .returned t

/-- Splitting a run into steps does not change its result (60_exceptions.md R107): a completed run is some number of
steps, and steps that reach a terminal status are a completed run. -/
def Obligations.StepsSplitRuns : Prop :=
  ∀ s t : State,
    (∀ fuel, run .runToCompletion fuel s = .returned t → ∃ k, Host.Core.run Sys2Proof.core k s = .next t) ∧
    (∀ k, Host.Core.run Sys2Proof.core k s = .next t → t.status.terminal = true →
      ∃ fuel, run .runToCompletion fuel s = .returned t)

/-- Resuming after PendingInput is transparent (60_exceptions.md R106): a run that blocked and is resumed with more words
ends as the run that had the words from the start. -/
def Obligations.ResumeIsTransparent : Prop :=
  ∀ (op : RunOp) (n m : Nat) (s t u : State) (ws : List Word), s.status.terminal = false →
    run op n s = .returned t → t.status = .pendingInput →
    run op m { t with input := t.input ++ ws } = .returned u →
    ∃ k, run op k { s with input := s.input ++ ws } = .returned u

/-- A hang stays a hang (60_exceptions.md R102; 42_control.md, JNZ's and JZ's corner case): a taken jump, JNZ or JZ, whose
target operand is its own pc never returns under any run operation but `step`, at any fuel (notes/assumptions/7.md). -/
def Obligations.JumpToItselfNeverReturns : Prop :=
  ∀ (op : RunOp) (fuel : Nat) (s : State) (i : Instr) (a target : Source) (v : Word),
    s.status.terminal = false → op ≠ .step → s.fetchInstr = .ok i →
    i = .jnz a target ∧ v ≠ 0 ∨ i = .jz a target ∧ v = 0 →
    s.readOperand a = .ok v → s.readOperand target = .ok (s.pc : Int) → run op fuel s = .outOfFuel

/-! ## The host interface -/

/-- 60_exceptions.md R109: PushInput, in every status; a non-Word is refused and nothing changes. -/
def Obligations.PushInputOperation : Prop :=
  ∀ (s : State) (v : Int),
    (s.config.inRange v → s.pushInput v = .ok { s with input := s.input ++ [v] } ∧
      s.Does (.pushInput v) { s with input := s.input ++ [v] }) ∧
    (¬ s.config.inRange v → s.pushInput v = .error (.notAWord v) ∧ ∀ t, s.Does (.pushInput v) t → t = s)

/-- PushAscii pushes every character's code in order or nothing, and output words 0 to 127 read as characters
(60_exceptions.md, PushAscii). That a character's code is its Lean code point, ASCII from 0 to 127, is PRESUMED by the
model (notes/assumptions/11.md). -/
def Obligations.PushAsciiOperation : Prop :=
  (∀ (s : State) (cs : List Char), s.config.legal = true →
    ((∀ c ∈ cs, c.toNat = 10 ∨ 32 ≤ c.toNat ∧ c.toNat ≤ 126) →
      s.pushAscii cs = .ok { s with input := s.input ++ cs.map fun c => (c.toNat : Int) }) ∧
    ((∃ c ∈ cs, ¬ (c.toNat = 10 ∨ 32 ≤ c.toNat ∧ c.toNat ≤ 126)) →
      (∃ e, s.pushAscii cs = .error e) ∧ ∀ t, s.Does (.pushAscii cs) t → t = s)) ∧
  (∀ cs : List Char, (∀ c ∈ cs, c.toNat ≤ 127) → asText (cs.map fun c => (c.toNat : Int)) = cs.map some) ∧
  (∀ w : Word, w < 0 ∨ 127 < w → asText [w] = [none])

/-- 60_exceptions.md R111: PopOutput, whatever the status was. -/
def Obligations.PopOutputOperation : Prop :=
  ∀ s : State,
    (∀ v rest, s.output = v :: rest → s.popOutput = (some v, { s with output := rest })) ∧
    (s.output = [] →
      s.popOutput = (none, { s with status := .faulted, fault := some ⟨.outputEmpty, s.pc, 0⟩ }))

/-- The host's reads of memory cells and Device lengths (60_exceptions.md R112, R113). That a read outside the address
space answers none is the MODEL's choice (notes/assumptions/10.md): the spec gives no such read. -/
def Obligations.HostReads : Prop :=
  ∀ (s : State) (a : Int),
    (0 ≤ a → a ≤ s.config.addrMax → s.readCell a = some (s.memRead a.toNat)) ∧
    (a < 0 ∨ (s.config.addrMax : Int) < a → s.readCell a = none) ∧
    s.inputLength = s.input.length ∧ s.outputLength = s.output.length

/-- 70_reset_and_hazards.md R130: loading the text of a Program gives the Program back, with or without a final
newline. -/
def Obligations.LoadOfToText : Prop :=
  ∀ (c : Config) (p : List Word), (∀ v ∈ p, c.inRange v) →
    load c (toText p) = .ok p ∧ load c (toText p ++ ['\n']) = .ok p

/-! ## The parameters -/

/-- A step that does not fault gives the same result on a wider Word (40_alu.md R73: "every result that does not fault
independent of WORD_BITS"). -/
def Obligations.WiderWordsSameResult : Prop :=
  ∀ (s t : State) (n : Nat), s.config.wordBits ≤ n → step s = .next t → t.status ≠ .faulted →
    step { s with config := { s.config with wordBits := n } } =
      .next { t with config := { t.config with wordBits := n } }

/-- A step that does not fault under `FETCH_BEYOND_IMAGE = fault` gives the same result under `sparse`
(00_scope.md R9, 20_memory.md R38). -/
def Obligations.SparseFetchSameResult : Prop :=
  ∀ s t : State, s.config.fetchBeyondImage = .fault → step s = .next t → t.status ≠ .faulted →
    step { s with config := { s.config with fetchBeyondImage := .sparse } } =
      .next { t with config := { t.config with fetchBeyondImage := .sparse } }

/-! ## Several Machines -/

/-- Machines share nothing (60_exceptions.md R120): a network driver's visit to one Machine changes another only by words
pushed to the back of its input Device. -/
def Obligations.VisitTouchesOneMachine : Prop :=
  ∀ (params : NetworkParams) (fuel k j n : Nat) (net after : Network) (s : State),
    visit params fuel net k = .ok (after, n) → j ≠ k → net.machines[j]? = some s →
    ∃ ws, after.machines[j]? = some { s with input := s.input ++ ws }
end

