-- ==== Sys2Proof/Laws/PerInstr.lean ====
section
/-! SUPPORT. Facts that hold for every instruction, one lemma per constructor. -/

namespace Sys2Proof.Laws

theorem toDigit_le (m : Mode) : m.toDigit ≤ 2 := by cases m <;> decide

/-- The instruction word of an opcode and three mode digits: not negative, below 100000, and the opcode in its two low
digits (30_encoding.md R54). -/
theorem headerWord_spec (k a b c : Nat) (hk : k < 100) (ha : a ≤ 2) (hb : b ≤ 2) (hc : c ≤ 2) :
    0 ≤ headerWord k a b c ∧ headerWord k a b c < 100000 ∧ (headerWord k a b c).toNat % 100 = k := by
  have hlt : k + 100 * a + 1000 * b + 10000 * c < 100000 := by omega
  refine ⟨Int.natCast_nonneg _, by unfold headerWord; exact_mod_cast hlt, ?_⟩
  show (k + 100 * a + 1000 * b + 10000 * c) % 100 = k
  omega

/-- The same, with the opcode the two low digits name. -/
theorem headerWord_opcode (op : Opcode) (k a b c : Nat) (hop : Opcode.ofNumber k = some op) (hk : k < 100)
    (ha : a ≤ 2) (hb : b ≤ 2) (hc : c ≤ 2) :
    0 ≤ headerWord k a b c ∧ headerWord k a b c < 100000 ∧
      Opcode.ofNumber ((headerWord k a b c).toNat % 100) = some op := by
  obtain ⟨h1, h2, h3⟩ := headerWord_spec k a b c hk ha hb hc
  exact ⟨h1, h2, by rw [h3, hop]⟩

namespace EncodeWidth

/-- The encoded instruction has the width of its format (30_encoding.md R53), its first Word is not negative and below
100000 (R62, R66), and the opcode in that Word's two low digits has one parameter fewer than the width (R57, R58). -/
def Statement (i : Instr) : Prop :=
  (encode i).length = i.width ∧ 0 ≤ i.word ∧ i.word < 100000 ∧
    ∃ op, Opcode.ofNumber (i.word.toNat % 100) = some op ∧ op.nparams + 1 = i.width

/-- What each constructor's lemma has to supply: its opcode and its three mode digits. -/
theorem of_header (i : Instr) (op : Opcode) (k a b c : Nat) (hw : i.word = headerWord k a b c)
    (hlen : (encode i).length = i.width) (hn : op.nparams + 1 = i.width) (hop : Opcode.ofNumber k = some op)
    (hk : k < 100) (ha : a ≤ 2) (hb : b ≤ 2) (hc : c ≤ 2) : Statement i := by
  obtain ⟨h1, h2, h3⟩ := headerWord_opcode op k a b c hop hk ha hb hc
  exact ⟨hlen, hw ▸ h1, hw ▸ h2, op, hw ▸ h3, hn⟩

theorem add (a b : Source) (d : Destination) : Statement (.add a b d) :=
  of_header _ .add 1 _ _ _ rfl rfl rfl rfl (by decide) (toDigit_le _) (toDigit_le _) (toDigit_le _)

theorem mul (a b : Source) (d : Destination) : Statement (.mul a b d) :=
  of_header _ .mul 2 _ _ _ rfl rfl rfl rfl (by decide) (toDigit_le _) (toDigit_le _) (toDigit_le _)

theorem inp (d : Destination) : Statement (.inp d) :=
  of_header _ .inp 3 _ 0 0 rfl rfl rfl rfl (by decide) (toDigit_le _) (by decide) (by decide)

theorem out (a : Source) : Statement (.out a) :=
  of_header _ .out 4 _ 0 0 rfl rfl rfl rfl (by decide) (toDigit_le _) (by decide) (by decide)

theorem jnz (a t : Source) : Statement (.jnz a t) :=
  of_header _ .jnz 5 _ _ 0 rfl rfl rfl rfl (by decide) (toDigit_le _) (toDigit_le _) (by decide)

theorem jz (a t : Source) : Statement (.jz a t) :=
  of_header _ .jz 6 _ _ 0 rfl rfl rfl rfl (by decide) (toDigit_le _) (toDigit_le _) (by decide)

theorem lt (a b : Source) (d : Destination) : Statement (.lt a b d) :=
  of_header _ .lt 7 _ _ _ rfl rfl rfl rfl (by decide) (toDigit_le _) (toDigit_le _) (toDigit_le _)

theorem eq (a b : Source) (d : Destination) : Statement (.eq a b d) :=
  of_header _ .eq 8 _ _ _ rfl rfl rfl rfl (by decide) (toDigit_le _) (toDigit_le _) (toDigit_le _)

theorem adj (a : Source) : Statement (.adj a) :=
  of_header _ .adj 9 _ 0 0 rfl rfl rfl rfl (by decide) (toDigit_le _) (by decide) (by decide)

theorem hlt : Statement .hlt := of_header _ .hlt 99 0 0 0 rfl rfl rfl rfl (by decide) (by decide) (by decide) (by decide)

end EncodeWidth

end Sys2Proof.Laws
end

