-- ==== Sys2Proof/Laws/Decode.lean ====
section
/-! SUPPORT. What the decoder's functions answer, said once: a header is legal exactly when the word is built from its
digits (30_encoding.md R54, R59). -/

namespace Sys2Proof

/-- The two-digit number of an opcode (30_encoding.md R57). -/
def Opcode.number : Opcode → Nat
  | .add => 1
  | .mul => 2
  | .inp => 3
  | .out => 4
  | .jnz => 5
  | .jz => 6
  | .lt => 7
  | .eq => 8
  | .adj => 9
  | .hlt => 99

theorem Opcode.ofNumber_eq_some (n : Nat) (op : Opcode) : Opcode.ofNumber n = some op ↔ n = op.number := by
  constructor
  · intro h
    unfold Opcode.ofNumber at h
    split at h <;> first | (cases h; rfl) | cases h
  · rintro rfl
    cases op <;> rfl

theorem Mode.ofDigit_eq_some (d : Nat) (m : Mode) : Mode.ofDigit d = some m ↔ d = m.toDigit := by
  constructor
  · intro h
    unfold Mode.ofDigit at h
    split at h <;> first | (cases h; rfl) | cases h
  · rintro rfl
    cases m <;> rfl

/-- A mode field is legal exactly when the digit is the mode's, and position for an absent parameter (R64, R65). -/
theorem modeField_eq_some (present : Bool) (d : Nat) (m : Mode) :
    modeField present d = some m ↔ d = m.toDigit ∧ (present = false → m = .position) := by
  unfold modeField
  cases present
  · simp only [Bool.false_eq_true, if_false]
    split
    · rename_i h
      subst h
      cases m <;> simp [Mode.toDigit]
    · rename_i h
      cases m <;> simp [Mode.toDigit, h]
  · simp [Mode.ofDigit_eq_some]

/-- The digits of a built instruction word (30_encoding.md R54). -/
theorem headerWord_digits (k a b c : Nat) (hk : k < 100) (ha : a ≤ 2) (hb : b ≤ 2) (hc : c ≤ 2) :
    digit 2 (headerWord k a b c).toNat = a ∧ digit 3 (headerWord k a b c).toNat = b ∧
      digit 4 (headerWord k a b c).toNat = c := by
  have e : (headerWord k a b c).toNat = k + 100 * a + 1000 * b + 10000 * c := rfl
  rw [e]
  unfold digit
  omega

/-- The instruction word's half of the decode procedure accepts exactly the words built from a header
(30_encoding.md R59, lines 2 to 7). -/
theorem decodeHeader_eq_ok (w : Word) (h : Header) :
    decodeHeader w = .ok h ↔
      w = headerWord h.op.number h.m1.toDigit h.m2.toDigit h.m3.toDigit ∧
        (h.op.nparams < 1 → h.m1 = .position) ∧ (h.op.nparams < 2 → h.m2 = .position) ∧
        (h.op.nparams < 3 → h.m3 = .position) := by
  constructor
  · intro e
    unfold decodeHeader at e
    split at e
    · cases e
    rename_i hw
    split at e
    · cases e
    rename_i op hop
    split at e
    · cases e
    rename_i hb
    split at e
    · rename_i m1 m2 m3 h1 h2 h3
      rw [Opcode.ofNumber_eq_some] at hop
      rw [modeField_eq_some] at h1 h2 h3
      cases e
      simp only [digit, decide_eq_false_iff_not, not_le] at *
      refine ⟨?_, h1.2, h2.2, h3.2⟩
      have hn : w = ((w.toNat : Nat) : Int) := (Int.toNat_of_nonneg (Int.not_lt.1 hw)).symm
      rw [hn]
      unfold headerWord
      congr 1
      omega
    · cases e
  · rintro ⟨rfl, h1, h2, h3⟩
    obtain ⟨op, m1, m2, m3⟩ := h
    have hk : op.number < 100 := by cases op <;> decide
    obtain ⟨p0, p1, p2⟩ := headerWord_spec_of op m1 m2 m3 hk
    obtain ⟨d1, d2, d3⟩ :=
      headerWord_digits op.number _ _ _ hk (Laws.toDigit_le m1) (Laws.toDigit_le m2) (Laws.toDigit_le m3)
    unfold decodeHeader
    rw [if_neg p0, p2]
    simp only
    rw [if_neg p1, d1, d2, d3, (modeField_eq_some _ _ m1).2 ⟨rfl, by simpa using h1⟩,
      (modeField_eq_some _ _ m2).2 ⟨rfl, by simpa using h2⟩, (modeField_eq_some _ _ m3).2 ⟨rfl, by simpa using h3⟩]
where
  headerWord_spec_of (op : Opcode) (m1 m2 m3 : Mode) (hk : op.number < 100) :
      ¬ headerWord op.number m1.toDigit m2.toDigit m3.toDigit < 0 ∧
        ¬ 100000 ≤ (headerWord op.number m1.toDigit m2.toDigit m3.toDigit).toNat ∧
        Opcode.ofNumber ((headerWord op.number m1.toDigit m2.toDigit m3.toDigit).toNat % 100) = some op := by
    obtain ⟨h1, h2, h3⟩ := Laws.headerWord_spec op.number _ _ _ hk (Laws.toDigit_le m1) (Laws.toDigit_le m2)
      (Laws.toDigit_le m3)
    refine ⟨Int.not_lt.2 h1, fun h => ?_, by rw [h3]; exact (Opcode.ofNumber_eq_some _ _).2 rfl⟩
    exact absurd (Int.toNat_of_nonneg h1 ▸ Int.ofNat_le.2 h : (100000 : Int) ≤ _) (Int.not_le.2 h2)

/-- A destination is accepted in every mode but immediate (30_encoding.md R67). -/
theorem Destination.ofMode_eq_ok (m : Mode) (p : Word) (d : Destination) :
    Destination.ofMode m p = .ok d ↔ d.mode = m ∧ d.param = p := by
  cases m <;> cases d <;> simp [Destination.ofMode, Destination.mode, Destination.param, eq_comm]

@[simp] theorem Source.mode_ofMode (m : Mode) (p : Word) : (Source.ofMode m p).mode = m := by cases m <;> rfl

@[simp] theorem Source.param_ofMode (m : Mode) (p : Word) : (Source.ofMode m p).param = p := by cases m <;> rfl

@[simp] theorem Source.ofMode_mode (a : Source) : Source.ofMode a.mode a.param = a := by cases a <;> rfl

@[simp] theorem Destination.ofMode_mode (d : Destination) : Destination.ofMode d.mode d.param = .ok d := by
  cases d <;> rfl

end Sys2Proof
end

