-- ==== Sys2Proof/Laws/Drivers.lean ====
section
/-! SUPPORT. What the drivers' shared operations do, said once. -/

namespace Sys2Proof.Machine

/-- `popAll` with fuel for every word empties the output Device and changes nothing else (60_exceptions.md R111). -/
theorem popAll_eq (s : State) (n : Nat) (h : s.output.length ≤ n) : popAll n s = (s.output, { s with output := [] }) := by
  have keep : s.output = [] → ({ s with output := [] } : State) = s := fun e => by
    cases s
    cases e
    rfl
  induction n generalizing s with
  | zero =>
    have ho : s.output = [] := List.eq_nil_of_length_eq_zero (Nat.le_zero.1 h)
    rw [keep ho, ho, popAll]
  | succ n ih =>
    cases ho : s.output with
    | nil => simp [popAll, State.popOutput, ho, keep ho]
    | cons v rest =>
      have hr : ({ s with output := rest } : State).output.length ≤ n := by
        rw [ho] at h
        exact Nat.le_of_succ_le_succ h
      have hp := ih { s with output := rest } hr fun e => by
        simp only at e
        rw [e]
      simp [popAll, State.popOutput, ho, hp]

/-- A push of several words appends them in order, whatever the status (60_exceptions.md R109). -/
theorem pushInput_foldlM (s : State) (ws : List Word) (h : ∀ v ∈ ws, s.config.inRange v) :
    ws.foldlM State.pushInput s = .ok { s with input := s.input ++ ws } := by
  induction ws generalizing s with
  | nil => simp [pure, Except.pure]
  | cons v ws ih =>
    have hv : s.pushInput v = .ok { s with input := s.input ++ [v] } := by
      rw [State.pushInput, if_pos (h v (List.mem_cons_self ..))]
    rw [List.foldlM_cons, hv]
    simp only [bind, Except.bind]
    rw [ih { s with input := s.input ++ [v] } fun w hw => h w (List.mem_cons_of_mem _ hw)]
    simp

/-- `pushAllAt` puts Words at the back of one Machine's input Device and touches no other Machine (60_exceptions.md
R120). -/
theorem pushAllAt_eq (ms : List State) (k : Nat) (ws : List Word) (s : State) (hk : ms[k]? = some s)
    (h : ∀ v ∈ ws, s.config.inRange v) :
    pushAllAt ms k ws = .ok (ms.set k { s with input := s.input ++ ws }) := by
  simp [pushAllAt, hk, pushInput_foldlM s ws h, liftHost, bind, Except.bind, pure, Except.pure]

end Sys2Proof.Machine
end

