-- ==== Sys2Proof/Laws/Memory.lean ====
section
/-! SUPPORT. The laws of the sparse memory: what a read after a write gives, and that every operation keeps the
canonical form. -/

namespace Sys2Proof.Machine

/-- The canonical form of a non-empty memory, as facts. -/
theorem Memory.wf_cons (c : Nat × Word) (m : Memory) :
    Memory.wf (c :: m) = true ↔ c.2 ≠ 0 ∧ (∀ d ∈ m, c.1 < d.1) ∧ Memory.wf m = true := by
  simp only [Memory.wf, Bool.and_eq_true, decide_eq_true_eq, List.all_eq_true, and_assoc]
  rfl

/-- Below the first listed address every cell reads 0. -/
theorem Memory.read_of_lt (m : Memory) (a : Nat) (h : ∀ d ∈ m, a < d.1) : Memory.read m a = 0 := by
  induction m with
  | nil => rfl
  | cons c m ih =>
    have hc : a < c.1 := h c (List.mem_cons_self ..)
    have hm : ∀ d ∈ m, a < d.1 := fun d hd => h d (List.mem_cons_of_mem _ hd)
    simp [Memory.read, Nat.ne_of_lt hc, ih hm]

/-- Every entry after a write is the written one or was there before. -/
theorem Memory.mem_write (m : Memory) (a : Nat) (v : Word) (c : Nat × Word) (h : c ∈ Memory.write m a v) :
    c = (a, v) ∨ c ∈ m := by
  induction m with
  | nil =>
    simp only [Memory.write] at h
    split at h <;> simp_all
  | cons d m ih =>
    obtain ⟨k, w⟩ := d
    simp only [Memory.write] at h
    split at h
    · split at h
      · exact .inr h
      · simpa using h
    · split at h
      · split at h
        · exact .inr (List.mem_cons_of_mem _ h)
        · rcases List.mem_cons.1 h with h | h
          · exact .inl h
          · exact .inr (List.mem_cons_of_mem _ h)
      · rcases List.mem_cons.1 h with h | h
        · exact .inr (h ▸ List.mem_cons_self ..)
        · exact (ih h).imp id (List.mem_cons_of_mem _)

/-- A write keeps the canonical form. -/
theorem Memory.wf_write (m : Memory) (a : Nat) (v : Word) (h : Memory.wf m = true) :
    Memory.wf (Memory.write m a v) = true := by
  induction m with
  | nil =>
    unfold Memory.write
    split
    · rfl
    · exact (Memory.wf_cons _ _).2 ⟨by assumption, by simp, rfl⟩
  | cons d m ih =>
    obtain ⟨k, w⟩ := d
    obtain ⟨hw, hlt, hm⟩ := (Memory.wf_cons _ _).1 h
    simp only [Memory.write]
    split
    · split
      · exact h
      · rename_i hak hv
        refine (Memory.wf_cons _ _).2 ⟨hv, fun d hd => ?_, h⟩
        rcases List.mem_cons.1 hd with rfl | hd
        · exact hak
        · exact hak.trans (hlt d hd)
    · split
      · split
        · exact hm
        · rename_i _ hak hv
          exact (Memory.wf_cons _ _).2 ⟨hv, by simpa [hak] using hlt, hm⟩
      · rename_i hak hne
        refine (Memory.wf_cons _ _).2 ⟨hw, fun d hd => ?_, ih hm⟩
        rcases Memory.mem_write m a v d hd with rfl | hd
        · exact Nat.lt_of_le_of_ne (Nat.le_of_not_lt hak) (Ne.symm hne)
        · exact hlt d hd

/-- MemRead after MemWrite (20_memory.md R37): the written word at its address, every other cell as before. -/
theorem Memory.read_write (m : Memory) (a b : Nat) (v : Word) (h : Memory.wf m = true) :
    Memory.read (Memory.write m a v) b = if b = a then v else Memory.read m b := by
  induction m with
  | nil =>
    simp only [Memory.write]
    split <;> by_cases hb : b = a <;> simp_all [Memory.read, Memory.unlisted]
  | cons d m ih =>
    obtain ⟨k, w⟩ := d
    obtain ⟨_, hlt, hm⟩ := (Memory.wf_cons _ _).1 h
    have low : ∀ x, x ≤ k → x ≠ k → Memory.read ((k, w) :: m) x = 0 := fun x hx hne =>
      Memory.read_of_lt _ x fun d hd => by
        have hxk := Nat.lt_of_le_of_ne hx hne
        rcases List.mem_cons.1 hd with rfl | hd
        · exact hxk
        · exact hxk.trans (hlt d hd)
    simp only [Memory.write]
    split
    · rename_i hak
      split
      · rename_i hv
        split
        · rename_i hb
          rw [hb, hv, low a (Nat.le_of_lt hak) (Nat.ne_of_lt hak), Memory.unlisted]
        · rfl
      · conv => lhs; unfold Memory.read
    · split
      · rename_i hk
        subst hk
        split
        · rename_i hv
          by_cases hb : b = a
          · rw [if_pos hb, hb, hv]
            exact Memory.read_of_lt m a hlt
          · simp [Memory.read, hb]
        · simp only [Memory.read]
          split <;> rfl
      · rename_i hk
        simp only [Memory.read, ih hm]
        by_cases hb : b = k
        · subst hb
          simp [Ne.symm hk]
        · simp [hb]

/-- Every entry of a loaded memory holds a word of the Program at its place. -/
theorem Memory.mem_load (p : List Word) (a : Nat) (c : Nat × Word) (h : c ∈ Memory.load a p) :
    a ≤ c.1 ∧ c.1 < a + p.length ∧ c.2 ∈ p := by
  induction p generalizing a with
  | nil => simp [Memory.load] at h
  | cons v vs ih =>
    have tail : c ∈ Memory.load (a + 1) vs → a ≤ c.1 ∧ c.1 < a + (v :: vs).length ∧ c.2 ∈ v :: vs := fun hc => by
      obtain ⟨h1, h2, h3⟩ := ih (a + 1) hc
      exact ⟨by omega, by simp only [List.length_cons]; omega, List.mem_cons_of_mem _ h3⟩
    simp only [Memory.load] at h
    split at h
    · exact tail h
    · rcases List.mem_cons.1 h with rfl | h
      · exact ⟨Nat.le_refl _, by simp, List.mem_cons_self ..⟩
      · exact tail h

/-- A loaded memory is in canonical form. -/
theorem Memory.wf_load (p : List Word) (a : Nat) : Memory.wf (Memory.load a p) = true := by
  induction p generalizing a with
  | nil => rfl
  | cons v vs ih =>
    simp only [Memory.load]
    split
    · exact ih _
    · rename_i hv
      exact (Memory.wf_cons _ _).2 ⟨hv, fun d hd => (Memory.mem_load vs (a + 1) d hd).1, ih _⟩

/-- A loaded memory reads as the Program at its addresses and as 0 elsewhere (70_reset_and_hazards.md R126). -/
theorem Memory.read_load (p : List Word) (a b : Nat) :
    Memory.read (Memory.load a p) b = if a ≤ b then p.getD (b - a) 0 else 0 := by
  induction p generalizing a with
  | nil => simp [Memory.load, Memory.read, Memory.unlisted]
  | cons v vs ih =>
    have next : Memory.read (Memory.load (a + 1) vs) b = if a + 1 ≤ b then (v :: vs).getD (b - a) 0 else 0 := by
      rw [ih]
      split
      · rename_i hb
        obtain ⟨k, rfl⟩ : ∃ k, b = a + 1 + k := ⟨b - (a + 1), by omega⟩
        have h1 : a + 1 + k - (a + 1) = k := by omega
        have h2 : a + 1 + k - a = k + 1 := by omega
        simp [h1, h2]
      · rfl
    simp only [Memory.load]
    by_cases hb : b = a
    · subst hb
      split
      · rename_i hv
        simp [next, hv, Memory.unlisted]
      · simp [Memory.read]
    · have same : (a ≤ b) ↔ (a + 1 ≤ b) := by omega
      split
      · simp [next, same]
      · simp [Memory.read, hb, next, same]

end Sys2Proof.Machine
end

