-- ==== Sys2Proof/Laws/State.lean ====
section
/-! SUPPORT. One lemma per field per update of the state, so that no later proof unfolds a record update. -/

namespace Sys2Proof.Machine

@[simp] theorem State.memWrite_config (s : State) (a : Nat) (v : Word) : (s.memWrite a v).config = s.config := rfl
@[simp] theorem State.memWrite_mem (s : State) (a : Nat) (v : Word) : (s.memWrite a v).mem = s.mem.write a v := rfl
@[simp] theorem State.memWrite_imageLen (s : State) (a : Nat) (v : Word) : (s.memWrite a v).imageLen = s.imageLen := rfl
@[simp] theorem State.memWrite_pc (s : State) (a : Nat) (v : Word) : (s.memWrite a v).pc = s.pc := rfl
@[simp] theorem State.memWrite_base (s : State) (a : Nat) (v : Word) : (s.memWrite a v).base = s.base := rfl
@[simp] theorem State.memWrite_status (s : State) (a : Nat) (v : Word) : (s.memWrite a v).status = s.status := rfl
@[simp] theorem State.memWrite_fault (s : State) (a : Nat) (v : Word) : (s.memWrite a v).fault = s.fault := rfl
@[simp] theorem State.memWrite_input (s : State) (a : Nat) (v : Word) : (s.memWrite a v).input = s.input := rfl
@[simp] theorem State.memWrite_output (s : State) (a : Nat) (v : Word) : (s.memWrite a v).output = s.output := rfl

@[simp] theorem State.setPc_config (s : State) (n : Nat) : (s.setPc n).config = s.config := rfl
@[simp] theorem State.setPc_mem (s : State) (n : Nat) : (s.setPc n).mem = s.mem := rfl
@[simp] theorem State.setPc_imageLen (s : State) (n : Nat) : (s.setPc n).imageLen = s.imageLen := rfl
@[simp] theorem State.setPc_pc (s : State) (n : Nat) : (s.setPc n).pc = n := rfl
@[simp] theorem State.setPc_base (s : State) (n : Nat) : (s.setPc n).base = s.base := rfl
@[simp] theorem State.setPc_status (s : State) (n : Nat) : (s.setPc n).status = s.status := rfl
@[simp] theorem State.setPc_fault (s : State) (n : Nat) : (s.setPc n).fault = s.fault := rfl
@[simp] theorem State.setPc_input (s : State) (n : Nat) : (s.setPc n).input = s.input := rfl
@[simp] theorem State.setPc_output (s : State) (n : Nat) : (s.setPc n).output = s.output := rfl

@[simp] theorem State.setBase_config (s : State) (v : Word) : (s.setBase v).config = s.config := rfl
@[simp] theorem State.setBase_mem (s : State) (v : Word) : (s.setBase v).mem = s.mem := rfl
@[simp] theorem State.setBase_imageLen (s : State) (v : Word) : (s.setBase v).imageLen = s.imageLen := rfl
@[simp] theorem State.setBase_pc (s : State) (v : Word) : (s.setBase v).pc = s.pc := rfl
@[simp] theorem State.setBase_base (s : State) (v : Word) : (s.setBase v).base = v := rfl
@[simp] theorem State.setBase_status (s : State) (v : Word) : (s.setBase v).status = s.status := rfl
@[simp] theorem State.setBase_fault (s : State) (v : Word) : (s.setBase v).fault = s.fault := rfl
@[simp] theorem State.setBase_input (s : State) (v : Word) : (s.setBase v).input = s.input := rfl
@[simp] theorem State.setBase_output (s : State) (v : Word) : (s.setBase v).output = s.output := rfl

@[simp] theorem State.setStatus_config (s : State) (x : Status) : (s.setStatus x).config = s.config := rfl
@[simp] theorem State.setStatus_mem (s : State) (x : Status) : (s.setStatus x).mem = s.mem := rfl
@[simp] theorem State.setStatus_imageLen (s : State) (x : Status) : (s.setStatus x).imageLen = s.imageLen := rfl
@[simp] theorem State.setStatus_pc (s : State) (x : Status) : (s.setStatus x).pc = s.pc := rfl
@[simp] theorem State.setStatus_base (s : State) (x : Status) : (s.setStatus x).base = s.base := rfl
@[simp] theorem State.setStatus_status (s : State) (x : Status) : (s.setStatus x).status = x := rfl
@[simp] theorem State.setStatus_fault (s : State) (x : Status) : (s.setStatus x).fault = s.fault := rfl
@[simp] theorem State.setStatus_input (s : State) (x : Status) : (s.setStatus x).input = s.input := rfl
@[simp] theorem State.setStatus_output (s : State) (x : Status) : (s.setStatus x).output = s.output := rfl

@[simp] theorem State.outPush_config (s : State) (v : Word) : (s.outPush v).config = s.config := rfl
@[simp] theorem State.outPush_mem (s : State) (v : Word) : (s.outPush v).mem = s.mem := rfl
@[simp] theorem State.outPush_imageLen (s : State) (v : Word) : (s.outPush v).imageLen = s.imageLen := rfl
@[simp] theorem State.outPush_pc (s : State) (v : Word) : (s.outPush v).pc = s.pc := rfl
@[simp] theorem State.outPush_base (s : State) (v : Word) : (s.outPush v).base = s.base := rfl
@[simp] theorem State.outPush_status (s : State) (v : Word) : (s.outPush v).status = s.status := rfl
@[simp] theorem State.outPush_fault (s : State) (v : Word) : (s.outPush v).fault = s.fault := rfl
@[simp] theorem State.outPush_input (s : State) (v : Word) : (s.outPush v).input = s.input := rfl
@[simp] theorem State.outPush_output (s : State) (v : Word) : (s.outPush v).output = s.output ++ [v] := rfl

@[simp] theorem State.takeFault_config (s : State) (r : Raised) : (s.takeFault r).config = s.config := rfl
@[simp] theorem State.takeFault_mem (s : State) (r : Raised) : (s.takeFault r).mem = s.mem := rfl
@[simp] theorem State.takeFault_imageLen (s : State) (r : Raised) : (s.takeFault r).imageLen = s.imageLen := rfl
@[simp] theorem State.takeFault_pc (s : State) (r : Raised) : (s.takeFault r).pc = s.pc := rfl
@[simp] theorem State.takeFault_base (s : State) (r : Raised) : (s.takeFault r).base = s.base := rfl
@[simp] theorem State.takeFault_status (s : State) (r : Raised) : (s.takeFault r).status = .faulted := rfl
@[simp] theorem State.takeFault_fault (s : State) (r : Raised) : (s.takeFault r).fault = some ⟨r.cause, s.pc, r.info⟩ := rfl
@[simp] theorem State.takeFault_input (s : State) (r : Raised) : (s.takeFault r).input = s.input := rfl
@[simp] theorem State.takeFault_output (s : State) (r : Raised) : (s.takeFault r).output = s.output := rfl

@[simp] theorem State.memRead_memWrite_eq_read (s : State) (a b : Nat) (v : Word) :
    (s.memWrite a v).memRead b = (s.mem.write a v).read b := rfl
@[simp] theorem State.memRead_setPc (s : State) (n a : Nat) : (s.setPc n).memRead a = s.memRead a := rfl
@[simp] theorem State.memRead_setBase (s : State) (v : Word) (a : Nat) : (s.setBase v).memRead a = s.memRead a := rfl
@[simp] theorem State.memRead_setStatus (s : State) (x : Status) (a : Nat) :
    (s.setStatus x).memRead a = s.memRead a := rfl
@[simp] theorem State.memRead_outPush (s : State) (v : Word) (a : Nat) : (s.outPush v).memRead a = s.memRead a := rfl
@[simp] theorem State.memRead_takeFault (s : State) (r : Raised) (a : Nat) :
    (s.takeFault r).memRead a = s.memRead a := rfl

/-- `InPop` answers exactly when the Device is not empty, with its front word, and takes only that word
(10_state.md R29). -/
theorem State.inPop_eq_some (s t : State) (v : Word) :
    s.inPop = some (v, t) ↔ ∃ rest, s.input = v :: rest ∧ t = { s with input := rest } := by
  unfold State.inPop
  cases h : s.input with
  | nil => simp
  | cons w rest =>
    simp only [Option.some.injEq, Prod.mk.injEq, List.cons.injEq]
    constructor
    · rintro ⟨rfl, rfl⟩
      exact ⟨rest, ⟨rfl, rfl⟩, rfl⟩
    · rintro ⟨_, ⟨rfl, rfl⟩, rfl⟩
      exact ⟨rfl, rfl⟩

theorem State.inPop_eq_none (s : State) : s.inPop = none ↔ s.input = [] := by
  unfold State.inPop
  cases h : s.input <;> simp

end Sys2Proof.Machine
end

