-- ==== Sys2Proof/Laws/Ops.lean ====
section
/-! SUPPORT. One lemma per shared operation that says once everything it can answer. -/

namespace Sys2Proof

/-! ## The Word range -/

theorem Config.wordMax_eq (c : Config) : c.wordMax = (c.addrMax : Int) := rfl

theorem Config.wordMin_eq (c : Config) : c.wordMin = -(c.addrMax : Int) - 1 := rfl

/-- `ADDR_MAX` at a legal width is at least 2^63 - 1 (00_scope.md R9). -/
theorem Config.le_addrMax (c : Config) (h : c.legal = true) : 2 ^ 63 - 1 ≤ c.addrMax := by
  have hw : 64 ≤ c.wordBits := by simpa [Config.legal] using h
  have : 2 ^ 63 ≤ 2 ^ (c.wordBits - 1) := Nat.pow_le_pow_right (by decide) (by omega)
  unfold Config.addrMax
  omega

/-- A wider machine has at least the addresses of a narrower one. -/
theorem Config.addrMax_mono {c d : Config} (h : c.wordBits ≤ d.wordBits) : c.addrMax ≤ d.addrMax :=
  Nat.sub_le_sub_right (Nat.pow_le_pow_right (by decide) (by omega)) 1

end Sys2Proof

namespace Sys2Proof.Machine

/-! ## Checked computations -/

@[simp] theorem Checked.ok_bind {α β : Type} (x : α) (f : α → Checked β) : (Except.ok x >>= f) = f x := rfl

@[simp] theorem Checked.error_bind {α β : Type} (r : Raised) (f : α → Checked β) :
    ((Except.error r : Checked α) >>= f) = Except.error r := rfl

@[simp] theorem Checked.pure_eq {α : Type} (x : α) : (pure x : Checked α) = Except.ok x := rfl

/-- A sequence of two checked computations succeeds exactly when both do. -/
theorem Checked.bind_eq_ok {α β : Type} (x : Checked α) (f : α → Checked β) (y : β) :
    x >>= f = .ok y ↔ ∃ a, x = .ok a ∧ f a = .ok y := by
  cases x <;> simp

/-- A sequence of two checked computations fails exactly when the first does or the second does after it. -/
theorem Checked.bind_eq_error {α β : Type} (x : Checked α) (f : α → Checked β) (r : Raised) :
    x >>= f = .error r ↔ x = .error r ∨ ∃ a, x = .ok a ∧ f a = .error r := by
  cases x <;> simp

@[simp] theorem raise_ne_ok {α : Type} (c : FaultCause) (n : Int) (x : α) : raise c n = .ok x ↔ False := by
  simp [raise]

@[simp] theorem InstrOutcome.ofChecked_ok (o : InstrOutcome) : InstrOutcome.ofChecked (.ok o) = o := rfl

@[simp] theorem InstrOutcome.ofChecked_error (r : Raised) : InstrOutcome.ofChecked (.error r) = .fault r := rfl

/-- A rule ends in something other than a fault exactly when its checks succeed with it. -/
theorem InstrOutcome.ofChecked_eq_done (x : Checked InstrOutcome) (k : DoneKind) (t : State) :
    InstrOutcome.ofChecked x = .done k t ↔ x = .ok (.done k t) := by
  cases x <;> simp

theorem InstrOutcome.ofChecked_eq_halt (x : Checked InstrOutcome) (t : State) :
    InstrOutcome.ofChecked x = .halt t ↔ x = .ok (.halt t) := by
  cases x <;> simp

theorem InstrOutcome.ofChecked_eq_blocked (x : Checked InstrOutcome) :
    InstrOutcome.ofChecked x = .blocked ↔ x = .ok .blocked := by
  cases x <;> simp

theorem State.checkWord_eq_ok (s : State) (r : Int) (v : Word) :
    s.checkWord r = .ok v ↔ s.config.inRange r ∧ v = r := by
  unfold State.checkWord
  split
  · rename_i h
    exact ⟨fun e => ⟨h, (Except.ok.inj e).symm⟩, fun e => e.2 ▸ rfl⟩
  · rename_i h
    exact ⟨fun e => absurd e (by simp [raise]), fun e => absurd e.1 h⟩

theorem State.advance_eq_ok (s : State) (k n : Nat) :
    s.advance k = .ok n ↔ s.pc + k ≤ s.config.addrMax ∧ n = s.pc + k := by
  unfold State.advance
  split
  · simp only [raise_ne_ok, false_iff]
    omega
  · simp only [Except.ok.injEq]
    omega

/-! ## Addresses and operands -/

theorem State.checkAddress_eq_ok (s : State) (a : Int) (n : Nat) :
    s.checkAddress a = .ok n ↔ a = (n : Int) ∧ n ≤ s.config.addrMax := by
  unfold State.checkAddress
  split
  · rename_i h
    simp only [raise_ne_ok, false_iff, not_and]
    rintro rfl
    simp only [Config.inRange, Config.wordMax_eq, Config.wordMin_eq] at h
    omega
  · rename_i h
    rw [Decidable.not_not] at h
    simp only [Config.inRange, Config.wordMax_eq, Config.wordMin_eq] at h
    split
    · simp only [raise_ne_ok, false_iff]
      omega
    · simp only [Except.ok.injEq]
      omega

/-- The operand resolver reads only the parameters, the base and the memory. -/
theorem State.readOperand_congr (s t : State) (o : Source) (hc : t.config = s.config) (hb : t.base = s.base)
    (hm : t.mem = s.mem) : t.readOperand o = s.readOperand o := by
  cases o <;> simp [State.readOperand, State.checkAddress, State.memRead, hc, hb, hm]

theorem State.destAddress_congr (s t : State) (d : Destination) (hc : t.config = s.config) (hb : t.base = s.base) :
    t.destAddress d = s.destAddress d := by
  cases d <;> simp [State.destAddress, State.checkAddress, hc, hb]

/-- A resolved destination is a legal address (20_memory.md R40). -/
theorem State.destAddress_le (s : State) (d : Destination) (n : Nat) (h : s.destAddress d = .ok n) :
    n ≤ s.config.addrMax := by
  cases d <;> exact ((State.checkAddress_eq_ok ..).1 h).2

/-! ## Instruction-stream reads -/

theorem State.fetch_eq_ok (s : State) (a : Nat) (v : Word) :
    s.fetch a = .ok v ↔
      a ≤ s.config.addrMax ∧ (s.config.fetchBeyondImage = .fault → a < s.imageLen) ∧ v = s.memRead a := by
  unfold State.fetch
  split
  · simp only [raise_ne_ok, false_iff]
    omega
  · split
    · rename_i h
      simp only [raise_ne_ok, false_iff]
      exact fun h' => absurd (h'.2.1 h.2) (by omega)
    · rename_i h1 h2
      simp only [Except.ok.injEq]
      constructor
      · rintro rfl
        refine ⟨by omega, fun hf => ?_, rfl⟩
        exact Nat.lt_of_not_le fun hl => h2 ⟨hl, hf⟩
      · exact fun h' => h'.2.2.symm

/-- The instruction stream is read through the parameters, the image length and the memory only. -/
theorem State.fetchInstr_congr (s t : State) (hc : t.config = s.config) (hl : t.imageLen = s.imageLen)
    (hm : t.mem = s.mem) (hp : t.pc = s.pc) : t.fetchInstr = s.fetchInstr := by
  simp [State.fetchInstr, State.fetchParam, State.fetch, State.memRead, hc, hl, hm, hp]

@[simp] theorem State.fetchInstr_setStatus (s : State) (x : Status) : (s.setStatus x).fetchInstr = s.fetchInstr :=
  State.fetchInstr_congr _ _ rfl rfl rfl rfl

@[simp] theorem ofDecoder_ok {α : Type} (w : Word) (x : α) : ofDecoder w (.ok x) = .ok x := rfl

@[simp] theorem ofDecoder_error {α : Type} (w : Word) (r : Reject) :
    ofDecoder w (.error r : Except Reject α) = .error ⟨causeOf r, w⟩ := rfl

end Sys2Proof.Machine
end

