-- ==== Sys2Proof/Laws/Rules.lean ====
section
/-! SUPPORT. What each instruction's rule can do, said once; every statement about `exec` and the run operations goes
through these. -/

namespace Sys2Proof.Machine

/-- `exec` is the rule followed by Settle, for every instruction (60_exceptions.md R94, R95). -/
theorem exec_eq_settled (i : Instr) (s : State) : exec i s = .next (s.settled (ruleOf i s)) := by
  cases i <;> rfl

/-- A completed three-operand instruction (40_alu.md R74 to R77). -/
theorem threeOperandRule_eq_done (f : Word → Word → Checked Word) (a b : Source) (dest : Destination) (s t : State)
    (k : DoneKind) :
    threeOperandRule f a b dest s = .done k t ↔
      k = .other ∧ ∃ va vb d r, s.readOperand a = .ok va ∧ s.readOperand b = .ok vb ∧ s.destAddress dest = .ok d ∧
        f va vb = .ok r ∧ s.pc + 4 ≤ s.config.addrMax ∧ t = (s.memWrite d r).setPc (s.pc + 4) := by
  simp only [threeOperandRule, InstrOutcome.ofChecked_eq_done, Checked.bind_eq_ok, State.advance_eq_ok, Checked.pure_eq,
    Except.ok.injEq, InstrOutcome.done.injEq]
  constructor
  · rintro ⟨va, ha, vb, hb, d, hd, r, hr, _, ⟨hp, rfl⟩, rfl, rfl⟩
    exact ⟨rfl, va, vb, d, r, ha, hb, hd, hr, hp, rfl⟩
  · rintro ⟨rfl, va, vb, d, r, ha, hb, hd, hr, hp, rfl⟩
    exact ⟨va, ha, vb, hb, d, hd, r, hr, _, ⟨hp, rfl⟩, rfl, rfl⟩

/-- A three-operand instruction neither blocks nor halts. -/
theorem threeOperandRule_not_blocked (f : Word → Word → Checked Word) (a b : Source) (dest : Destination) (s : State) :
    threeOperandRule f a b dest s ≠ .blocked := by
  simp [threeOperandRule, InstrOutcome.ofChecked_eq_blocked, Checked.bind_eq_ok]

theorem threeOperandRule_not_halt (f : Word → Word → Checked Word) (a b : Source) (dest : Destination) (s t : State) :
    threeOperandRule f a b dest s ≠ .halt t := by
  simp [threeOperandRule, InstrOutcome.ofChecked_eq_halt, Checked.bind_eq_ok]

/-- A completed IN (41_io.md R78). -/
theorem inRule_eq_done (dest : Destination) (s t : State) (k : DoneKind) :
    inRule dest s = .done k t ↔
      k = .input ∧ ∃ d v rest, s.destAddress dest = .ok d ∧ s.input = v :: rest ∧ s.pc + 2 ≤ s.config.addrMax ∧
        t = ({ s with input := rest }.memWrite d v).setPc (s.pc + 2) := by
  unfold inRule
  simp only [InstrOutcome.ofChecked_eq_done, Checked.bind_eq_ok]
  cases h : s.inPop with
  | none =>
    have hi := (State.inPop_eq_none s).1 h
    simp [hi]
  | some p =>
    obtain ⟨v, u⟩ := p
    obtain ⟨rest, hi, rfl⟩ := (State.inPop_eq_some s u v).1 h
    simp only [Checked.bind_eq_ok, State.advance_eq_ok, Checked.pure_eq, Except.ok.injEq, InstrOutcome.done.injEq, hi,
      List.cons.injEq]
    constructor
    · rintro ⟨d, hd, _, ⟨hp, rfl⟩, rfl, rfl⟩
      exact ⟨rfl, d, v, rest, hd, ⟨rfl, rfl⟩, hp, rfl⟩
    · rintro ⟨rfl, d, _, _, hd, ⟨rfl, rfl⟩, hp, rfl⟩
      exact ⟨d, hd, _, ⟨hp, rfl⟩, rfl, rfl⟩

/-- IN blocks exactly when its destination resolves and the input Device is empty (41_io.md R78). -/
theorem inRule_eq_blocked (dest : Destination) (s : State) :
    inRule dest s = .blocked ↔ (∃ d, s.destAddress dest = .ok d) ∧ s.input = [] := by
  unfold inRule
  simp only [InstrOutcome.ofChecked_eq_blocked, Checked.bind_eq_ok]
  cases h : s.inPop with
  | none => simp [(State.inPop_eq_none s).1 h]
  | some p =>
    obtain ⟨v, u⟩ := p
    obtain ⟨rest, hi, rfl⟩ := (State.inPop_eq_some s u v).1 h
    simp [Checked.bind_eq_ok, hi]

theorem inRule_not_halt (dest : Destination) (s t : State) : inRule dest s ≠ .halt t := by
  unfold inRule
  simp only [ne_eq, InstrOutcome.ofChecked_eq_halt, Checked.bind_eq_ok]
  rintro ⟨d, -, h⟩
  split at h <;> simp [Checked.bind_eq_ok] at h

/-- A completed OUT (41_io.md R79). -/
theorem outRule_eq_done (a : Source) (s t : State) (k : DoneKind) :
    outRule a s = .done k t ↔
      k = .output ∧ ∃ v, s.readOperand a = .ok v ∧ s.pc + 2 ≤ s.config.addrMax ∧
        t = (s.outPush v).setPc (s.pc + 2) := by
  simp only [outRule, InstrOutcome.ofChecked_eq_done, Checked.bind_eq_ok, State.advance_eq_ok, Checked.pure_eq,
    Except.ok.injEq, InstrOutcome.done.injEq]
  constructor
  · rintro ⟨v, hv, _, ⟨hp, rfl⟩, rfl, rfl⟩
    exact ⟨rfl, v, hv, hp, rfl⟩
  · rintro ⟨rfl, v, hv, hp, rfl⟩
    exact ⟨v, hv, _, ⟨hp, rfl⟩, rfl, rfl⟩

theorem outRule_not_blocked (a : Source) (s : State) : outRule a s ≠ .blocked := by
  simp [outRule, InstrOutcome.ofChecked_eq_blocked, Checked.bind_eq_ok]

theorem outRule_not_halt (a : Source) (s t : State) : outRule a s ≠ .halt t := by
  simp [outRule, InstrOutcome.ofChecked_eq_halt, Checked.bind_eq_ok]

/-- A completed jump (42_control.md R81, R82): taken to a target that is not negative, or three words on. -/
theorem jumpRule_eq_done (taken : Word → Bool) (a target : Source) (s t : State) (k : DoneKind) :
    jumpRule taken a target s = .done k t ↔
      k = .other ∧ ∃ v w, s.readOperand a = .ok v ∧ s.readOperand target = .ok w ∧
        ((taken v = true ∧ 0 ≤ w ∧ t = s.setPc w.toNat) ∨
          (taken v = false ∧ s.pc + 3 ≤ s.config.addrMax ∧ t = s.setPc (s.pc + 3))) := by
  simp only [jumpRule, InstrOutcome.ofChecked_eq_done, Checked.bind_eq_ok]
  constructor
  · rintro ⟨v, hv, w, hw, h⟩
    split at h
    · split at h
      · simp at h
      · rename_i ht hn
        obtain ⟨rfl, rfl⟩ : k = .other ∧ t = s.setPc w.toNat := by simpa [eq_comm] using h
        exact ⟨rfl, v, w, hv, hw, .inl ⟨ht, Int.not_lt.1 hn, rfl⟩⟩
    · rename_i ht
      obtain ⟨n, hn, h⟩ := (Checked.bind_eq_ok _ _ _).1 h
      obtain ⟨hp, rfl⟩ := (State.advance_eq_ok _ _ _).1 hn
      obtain ⟨rfl, rfl⟩ : k = .other ∧ t = s.setPc (s.pc + 3) := by simpa [eq_comm] using h
      exact ⟨rfl, v, w, hv, hw, .inr ⟨by simpa using ht, hp, rfl⟩⟩
  · rintro ⟨rfl, v, w, hv, hw, ⟨ht, hn, rfl⟩ | ⟨ht, hp, rfl⟩⟩
    · exact ⟨v, hv, w, hw, by simp [ht, Int.not_lt.2 hn]⟩
    · refine ⟨v, hv, w, hw, ?_⟩
      simp only [ht, Bool.false_eq_true, if_false]
      exact (Checked.bind_eq_ok _ _ _).2 ⟨_, (State.advance_eq_ok _ _ _).2 ⟨hp, rfl⟩, rfl⟩

theorem jumpRule_not_blocked (taken : Word → Bool) (a target : Source) (s : State) :
    jumpRule taken a target s ≠ .blocked := by
  simp only [jumpRule, ne_eq, InstrOutcome.ofChecked_eq_blocked, Checked.bind_eq_ok]
  rintro ⟨v, -, w, -, h⟩
  split at h
  · split at h <;> simp at h
  · simp [Checked.bind_eq_ok] at h

theorem jumpRule_not_halt (taken : Word → Bool) (a target : Source) (s t : State) :
    jumpRule taken a target s ≠ .halt t := by
  simp only [jumpRule, ne_eq, InstrOutcome.ofChecked_eq_halt, Checked.bind_eq_ok]
  rintro ⟨v, -, w, -, h⟩
  split at h
  · split at h <;> simp at h
  · simp [Checked.bind_eq_ok] at h

/-- A completed ADJ (43_base.md R85). -/
theorem adjRule_eq_done (a : Source) (s t : State) (k : DoneKind) :
    adjRule a s = .done k t ↔
      k = .other ∧ ∃ v, s.readOperand a = .ok v ∧ s.config.inRange (s.base + v) ∧ s.pc + 2 ≤ s.config.addrMax ∧
        t = (s.setBase (s.base + v)).setPc (s.pc + 2) := by
  simp only [adjRule, InstrOutcome.ofChecked_eq_done, Checked.bind_eq_ok, State.advance_eq_ok, State.checkWord_eq_ok,
    Checked.pure_eq, Except.ok.injEq, InstrOutcome.done.injEq]
  constructor
  · rintro ⟨v, hv, _, ⟨hr, rfl⟩, _, ⟨hp, rfl⟩, rfl, rfl⟩
    exact ⟨rfl, v, hv, hr, hp, rfl⟩
  · rintro ⟨rfl, v, hv, hr, hp, rfl⟩
    exact ⟨v, hv, _, ⟨hr, rfl⟩, _, ⟨hp, rfl⟩, rfl, rfl⟩

theorem adjRule_not_blocked (a : Source) (s : State) : adjRule a s ≠ .blocked := by
  simp [adjRule, InstrOutcome.ofChecked_eq_blocked, Checked.bind_eq_ok]

theorem adjRule_not_halt (a : Source) (s t : State) : adjRule a s ≠ .halt t := by
  simp [adjRule, InstrOutcome.ofChecked_eq_halt, Checked.bind_eq_ok]

/-- HLT halts exactly when pc can advance (42_control.md R83). -/
theorem hltRule_eq_halt (s t : State) :
    hltRule s = .halt t ↔ s.pc + 1 ≤ s.config.addrMax ∧ t = s.setPc (s.pc + 1) := by
  simp only [hltRule, InstrOutcome.ofChecked_eq_halt, Checked.bind_eq_ok, State.advance_eq_ok, Checked.pure_eq,
    Except.ok.injEq, InstrOutcome.halt.injEq]
  constructor
  · rintro ⟨_, ⟨hp, rfl⟩, rfl⟩
    exact ⟨hp, rfl⟩
  · rintro ⟨hp, rfl⟩
    exact ⟨_, ⟨hp, rfl⟩, rfl⟩

theorem hltRule_not_done (s t : State) (k : DoneKind) : hltRule s ≠ .done k t := by
  simp [hltRule, InstrOutcome.ofChecked_eq_done, Checked.bind_eq_ok]

theorem hltRule_not_blocked (s : State) : hltRule s ≠ .blocked := by
  simp [hltRule, InstrOutcome.ofChecked_eq_blocked, Checked.bind_eq_ok]

/-- Only IN blocks, and only on an empty input Device (60_exceptions.md R93). -/
theorem ruleOf_eq_blocked (i : Instr) (s : State) (h : ruleOf i s = .blocked) :
    (∃ d, i = .inp d) ∧ s.input = [] := by
  cases i with
  | inp d => exact ⟨⟨d, rfl⟩, ((inRule_eq_blocked d s).1 h).2⟩
  | add a b d => exact (threeOperandRule_not_blocked _ a b d s h).elim
  | mul a b d => exact (threeOperandRule_not_blocked _ a b d s h).elim
  | lt a b d => exact (threeOperandRule_not_blocked _ a b d s h).elim
  | eq a b d => exact (threeOperandRule_not_blocked _ a b d s h).elim
  | out a => exact (outRule_not_blocked a s h).elim
  | jnz a u => exact (jumpRule_not_blocked _ a u s h).elim
  | jz a u => exact (jumpRule_not_blocked _ a u s h).elim
  | adj a => exact (adjRule_not_blocked a s h).elim
  | hlt => exact (hltRule_not_blocked s h).elim

/-- Only HLT halts, one past itself (42_control.md R83). -/
theorem ruleOf_eq_halt (i : Instr) (s t : State) (h : ruleOf i s = .halt t) :
    i = .hlt ∧ s.pc + 1 ≤ s.config.addrMax ∧ t = s.setPc (s.pc + 1) := by
  cases i with
  | hlt => exact ⟨rfl, (hltRule_eq_halt s t).1 h⟩
  | inp d => exact (inRule_not_halt d s t h).elim
  | add a b d => exact (threeOperandRule_not_halt _ a b d s t h).elim
  | mul a b d => exact (threeOperandRule_not_halt _ a b d s t h).elim
  | lt a b d => exact (threeOperandRule_not_halt _ a b d s t h).elim
  | eq a b d => exact (threeOperandRule_not_halt _ a b d s t h).elim
  | out a => exact (outRule_not_halt a s t h).elim
  | jnz a u => exact (jumpRule_not_halt _ a u s t h).elim
  | jz a u => exact (jumpRule_not_halt _ a u s t h).elim
  | adj a => exact (adjRule_not_halt a s t h).elim

/-- The operation and the result of a three-operand instruction (40_alu.md R74 to R77). -/
theorem ruleOf_add (a b : Source) (d : Destination) (s : State) :
    ruleOf (.add a b d) s = threeOperandRule (fun x y => s.checkWord (x + y)) a b d s := rfl

theorem ruleOf_mul (a b : Source) (d : Destination) (s : State) :
    ruleOf (.mul a b d) s = threeOperandRule (fun x y => s.checkWord (x * y)) a b d s := rfl

theorem ruleOf_lt (a b : Source) (d : Destination) (s : State) :
    ruleOf (.lt a b d) s = threeOperandRule (fun x y => .ok (comparisonWord (lessThan x y))) a b d s := rfl

theorem ruleOf_eq (a b : Source) (d : Destination) (s : State) :
    ruleOf (.eq a b d) s = threeOperandRule (fun x y => .ok (comparisonWord (equalTo x y))) a b d s := rfl

/-- A comparison's result is 0 or 1 (40_alu.md R73), so it is a Word. -/
theorem comparisonWord_inRange (c : Config) (h : c.legal = true) (p : Bool) : c.inRange (comparisonWord p) := by
  have := c.le_addrMax h
  have hw : c.inRange 0 ∧ c.inRange 1 := by
    simp only [Config.inRange, Config.wordMax_eq, Config.wordMin_eq]
    omega
  cases p
  · exact hw.1
  · exact hw.2

/-- One instruction through `exec1` is the rule of the fetched instruction (60_exceptions.md R94). -/
theorem exec1_of_fetch (s : State) (i : Instr) (h : s.fetchInstr = .ok i) : exec1 s = ruleOf i s := by
  simp [exec1, h]

/-- `step()` is Running, `Exec1` and Settle, in a status that is not terminal (60_exceptions.md R97). -/
theorem step_eq_settled (s : State) (h : s.status.terminal = false) :
    step s = .next ((s.setStatus .running).settled (exec1 (s.setStatus .running))) := by
  simp only [step, h, Bool.false_eq_true, if_false, exec1]
  cases (s.setStatus .running).fetchInstr with
  | ok i => simp [exec_eq_settled]
  | error r => rfl

/-- `step()` in Halted and Faulted does nothing (60_exceptions.md R96). -/
theorem step_of_terminal (s : State) (h : s.status.terminal = true) : step s = .next s := by
  simp [step, h]

end Sys2Proof.Machine
end

