-- ==== Sys2Proof/Tests/Slice0.lean ====
section
/-! SUPPORT. The model's own tests. Expected values come from spec/30_encoding.md and spec/95_test_vectors.md (the vector
is named beside each), never from the model. The second half gives, for each obligation that has hypotheses, states and
operands that meet them, clause by clause, at the ends of the ranges. -/

namespace Sys2Proof.Tests

open Sys2Proof Sys2Proof.Machine

/-! ## Helpers -/

/-- A Machine after Construct of `p`, but for the base and the input words a vector's start names. -/
def start (base : Word) (input p : List Word) : State :=
  { State.reset with mem := Memory.load 0 p, imageLen := p.length, base := base, input := input }

/-- The same with every address fetchable and the pc at `n`: the top of the address space within reach. -/
def startAt (n : Nat) (p : List Word) : State :=
  { start 0 [] [] with config := ⟨64, .sparse⟩, mem := Memory.load n p, pc := n }

/-- The state an outcome goes on in. -/
def nextOf (o : Host.Outcome State Fault Refusal) : Option State :=
  match o with
  | .next t => some t
  | .fault _ => none
  | .refused _ => none

/-- Status, pc and one cell after a step. -/
def stepCell (a : Nat) (s : State) : Option (Status × Nat × Word) :=
  (nextOf (step s)).map fun t => (t.status, t.pc, t.memRead a)

/-- The fault record after a step that ended in Faulted. -/
def stepFault (s : State) : Option FaultRecord := (nextOf (step s)).bind fun t => if t.status = .faulted then t.fault else none

/-- What the host sees of a run operation's end. -/
def runEnd (op : RunOp) (fuel : Nat) (s : State) : Option (Status × Nat × List Word × List Word) :=
  match run op fuel s with
  | .returned t => some (t.status, t.pc, t.input, t.output)
  | .outOfFuel => none

/-! ## Well-formed instructions (30_encoding.md R52, 00_scope.md R11) -/

theorem test_wellFormed_ends :
    Instr.wellFormed .standard (.add (.immediate 9223372036854775807) (.position (-9223372036854775808)) (.position 0)) =
      true := by decide

theorem test_wellFormed_refuses_large_source :
    Instr.wellFormed .standard (.jnz (.immediate 9223372036854775808) (.position 0)) = false := by decide

theorem test_wellFormed_refuses_small_destination :
    Instr.wellFormed .standard (.inp (.relative (-9223372036854775809))) = false := by decide

/-! ## Words written out from 30_encoding.md R54, R57 and R68: `opcode + 100·m1 + 1000·m2 + 10000·m3` -/

theorem test_decode_add : decode [21101, 2, 3, -3, 77] =
    .ok (.add (.immediate 2) (.immediate 3) (.relative (-3)), [77]) := by decide

theorem test_decode_mul : decode [1002, 4, 3, 33] =
    .ok (.mul (.position 4) (.immediate 3) (.position 33), []) := by decide

theorem test_decode_in : decode [203, -1, 5] = .ok (.inp (.relative (-1)), [5]) := by decide

theorem test_decode_out : decode [104, -5] = .ok (.out (.immediate (-5)), []) := by decide

theorem test_decode_jnz : decode [2205, 6, 7] = .ok (.jnz (.relative 6) (.relative 7), []) := by decide

theorem test_decode_jz : decode [1206, 0, 12] = .ok (.jz (.relative 0) (.immediate 12), []) := by decide

theorem test_decode_lt : decode [20107, 1, 2, 3] =
    .ok (.lt (.immediate 1) (.position 2) (.relative 3), []) := by decide

theorem test_decode_eq : decode [1208, 1, 2, 3] =
    .ok (.eq (.relative 1) (.immediate 2) (.position 3), []) := by decide

theorem test_decode_adj : decode [209, 1] = .ok (.adj (.relative 1), []) := by decide

theorem test_decode_hlt : decode [99, 1] = .ok (.hlt, [1]) := by decide

/-- 30_encoding.md R62 to R67 and the order of 60_exceptions.md R89 (vectors DEC1 to DEC10, DEC14, DEC15, LT6). -/
theorem test_decode_refuses :
    [[0], [-1], [10], [98], [100098]].map decode = List.replicate 5 (.error (.illegal .unknownOpcode)) ∧
    [[301, 0, 0, 0], [1104, 0], [199], [100099], [20099], [30002, 0, 0, 0], [11105, 1, 4, 99]].map decode =
      List.replicate 7 (.error (.illegal .illegalMode)) ∧
    [[11107, 1, 2, 0], [103, 3]].map decode = List.replicate 2 (.error (.illegal .immediateDestination)) ∧
    decode [1002, 4, 3] = .error .truncated := by decide

/-- The encoder's words (30_encoding.md R68, R70; S4's listing in 95_test_vectors.md). -/
theorem test_encode :
    encode (.adj (.immediate 1)) ++ encode (.out (.relative (-1))) ++
        encode (.add (.position 100) (.immediate 1) (.position 100)) ++
        encode (.eq (.position 100) (.immediate 16) (.position 101)) ++
        encode (.jz (.position 101) (.immediate 0)) ++ encode .hlt =
      [109, 1, 204, -1, 1001, 100, 1, 100, 1008, 100, 16, 101, 1006, 101, 0, 99] := by decide

/-- The host's numbering (notes/assumptions/4.md): the second Word counts on from bit 64, operand words of zeros above. -/
theorem test_tableWord :
    decodeTableWord 64 1002 = some (.mul (.position 0) (.immediate 0) (.position 0)) ∧
    decodeTableWord 128 (104 + 2 ^ 64 * (2 ^ 64 - 5)) = some (.out (.immediate (-5))) ∧
    decodeTableWord 64 11101 = none := by decide

/-- A table word is what the next step runs, right after reset (notes/assumptions/4.md). -/
theorem test_withFetchWord :
    (State.reset.withFetchWord 64 99).fetchInstr = .ok .hlt ∧
    (nextOf (step (State.reset.withFetchWord 64 99))).map State.status = some .halted := by decide

/-! ## Memory (20_memory.md R36, R37; 10_state.md R28) -/

theorem test_memory_canonical :
    Memory.write (Memory.write [] 7 5) 3 (-1) = [(3, -1), (7, 5)] ∧ Memory.write [(3, -1), (7, 5)] 3 0 = [(7, 5)] ∧
    Memory.read [(7, 5)] 3 = 0 ∧ Memory.wf [(3, -1), (7, 0)] = false ∧ Memory.wf [(7, 5), (3, -1)] = false := by decide

/-! ## One step of each instruction (95_test_vectors.md part 2) -/

/-- ADD8: its own parameter is overwritten after it was read. -/
theorem test_step_add : stepCell 3 (start 0 [] [1101, 7, 0, 3, 99]) = some (.paused, 4, 7) := by decide

/-- ADD2. -/
theorem test_step_add_overflow : stepFault (start 0 [] [1101, 9223372036854775807, 1, 0, 99]) =
    some ⟨.overflow, 0, 9223372036854775808⟩ := by decide

/-- MUL7. -/
theorem test_step_mul : stepCell 0 (start 0 [] [1102, -4611686018427387904, 2, 0, 99]) =
    some (.paused, 4, -9223372036854775808) := by decide

/-- MUL4. -/
theorem test_step_mul_overflow : stepFault (start 0 [] [1102, -9223372036854775808, -1, 0, 99]) =
    some ⟨.overflow, 0, 9223372036854775808⟩ := by decide

/-- LT5. -/
theorem test_step_lt : stepCell 0 (start 0 [] [1107, 9223372036854775807, -9223372036854775808, 0, 99]) =
    some (.paused, 4, 0) := by decide

/-- LT3: the comparison is signed. -/
theorem test_step_lt_signed : stepCell 0 (start 0 [] [1107, -1, 0, 0, 99]) = some (.paused, 4, 1) := by decide

/-- EQ3: the destination is a source. -/
theorem test_step_eq : stepCell 5 (start 0 [] [8, 5, 6, 5, 99, 4, 4]) = some (.paused, 4, 1) := by decide

/-- EQ4: the result goes beyond the image. -/
theorem test_step_eq_relative : stepCell 5 (start 5 [] [21108, 3, 3, 0, 99]) = some (.paused, 4, 1) := by decide

/-- IN3. -/
theorem test_step_in : (nextOf (step (start 0 [5, 6] [3, 3, 99, 0]))).map (fun t => (t.pc, t.memRead 3, t.input)) =
    some (2, 5, [6]) := by decide

/-- IN2, and IN7: a bad destination faults even when the input is empty. -/
theorem test_step_in_empty :
    nextOf (step (start 0 [] [3, 3, 99, 0])) = some { start 0 [] [3, 3, 99, 0] with status := .pendingInput } ∧
    stepFault (start 0 [] [3, -4, 99]) = some ⟨.negativeAddress, 0, -4⟩ := by decide

/-- OUT3. -/
theorem test_step_out : (nextOf (step (start 2 [] [204, 1, 99, 55]))).map (fun t => (t.pc, t.output)) =
    some (2, [55]) := by decide

/-- JNZ7 and JNZ4: a jump that is not taken does not look at its target's sign. -/
theorem test_step_jnz :
    stepCell 0 (start 3 [] [2205, 0, 1, 99, 5]) = some (.paused, 5, 2205) ∧
    stepCell 0 (start 0 [] [1105, 0, -1, 99]) = some (.paused, 3, 1105) := by decide

/-- JZ1 and JZ3. -/
theorem test_step_jz :
    stepCell 0 (start 0 [] [1106, 0, 4, 99, 99]) = some (.paused, 4, 1106) ∧
    stepFault (start 0 [] [1106, 0, -9, 99]) = some ⟨.negativeAddress, 0, -9⟩ := by decide

/-- ADJ4: the operand is read with the old base; ADJ3. -/
theorem test_step_adj :
    (nextOf (step (start 2 [] [209, 1, 99, 4]))).map (fun t => (t.pc, t.base)) = some (2, 6) ∧
    stepFault (start 9223372036854775807 [] [109, 1, 99]) = some ⟨.overflow, 0, 9223372036854775808⟩ := by decide

/-- HLT1, and the pc that cannot advance past the top of the address space (30_encoding.md R60). -/
theorem test_step_hlt :
    stepCell 0 (start 0 [] [99]) = some (.halted, 1, 99) ∧
    stepFault (startAt 9223372036854775807 [99]) = some ⟨.overflow, 9223372036854775807, 9223372036854775808⟩ := by decide

/-- DEC9, DEC11 and DEC12: the order of the checks, and fetches beyond the image. -/
theorem test_step_fetch :
    stepFault (start 0 [] [100098]) = some ⟨.unknownOpcode, 0, 100098⟩ ∧
    stepFault (start 0 [] [1]) = some ⟨.fetchOutOfImage, 0, 1⟩ ∧
    stepCell 0 { start 0 [] [1] with config := ⟨64, .sparse⟩ } = some (.paused, 4, 2) := by decide

/-- Four rows of the table of 60_exceptions.md R86. -/
theorem test_fault_codes :
    [FaultCause.unknownOpcode, .negativeAddress, .overflow, .outputEmpty].map FaultCause.code = [1, 4, 5, 7] := by decide

/-! ## Run operations, host operations, loader (95_test_vectors.md) -/

/-- RUN7 and vector S3's `runToOutput` on an empty input. -/
theorem test_run_to_output :
    runEnd .runToOutput 2 (start 0 [] [104, 1, 1105, 1, 0]) = some (.paused, 2, [], [1]) ∧
    runEnd .runToOutput 2 (start 0 [] [3, 9, 8, 9, 10, 9, 4, 9, 99, -1, 8]) = some (.pendingInput, 0, [], []) := by decide

/-- S3's `runToAnyIO` with 8, and RUN5: a loop spends any fuel. -/
theorem test_run_to_any_io :
    runEnd .runToAnyIO 2 (start 0 [8] [3, 9, 8, 9, 10, 9, 4, 9, 99, -1, 8]) = some (.paused, 2, [], []) ∧
    runEnd .runToCompletion 9 (start 0 [] [1105, 1, 0]) = none := by decide

/-- S1's second and third steps; a halted Machine that is popped (vector HLT's note). -/
theorem test_run_to_completion :
    runEnd .runToCompletion 3 (start 0 [] [1, 9, 10, 3, 2, 3, 11, 0, 99, 30, 40, 50]) = some (.halted, 9, [], []) ∧
    (nextOf (step (start 0 [] [99]))).map (fun t => t.popOutput.2.fault) = some (some ⟨.outputEmpty, 1, 0⟩) := by decide

/-- Vector LOAD, `"007,-0"`, `"1,2,\n"`, `"+1"` and the two 19-digit texts; and 70_reset_and_hazards.md R130. -/
theorem test_load :
    load .standard ['0', '0', '7', ',', '-', '0'] = .ok [7, 0] ∧
    load .standard ['1', ',', '2', ',', '\n'] = .ok [1, 2] ∧ load .standard ['+', '1'] = .ok [] ∧
    load .standard "-9223372036854775808".toList = .ok [-9223372036854775808] ∧
    load .standard "1,9223372036854775808".toList = .error ⟨2⟩ ∧
    toText [1, -20, 0] = "1,-20,0".toList := by decide

/-- A relay of two Machines that output their phase plus the signal: 2 + (1 + 0) (60_exceptions.md R122). -/
theorem test_pipeline :
    ((loadPhases .standard [3, 20, 3, 21, 1, 20, 21, 22, 4, 22, 99] [1, 2]).bind fun ms =>
        (pipeline .runToOutput 9 ms 0).map Prod.snd) = .ok 3 := by decide

/-- The feedback loop (60_exceptions.md R123). Machine 0 has 5 waiting, gets the signal 6 and passes each word on; Machine
1 adds two words. In the first round Machine 1 blocks without an output and nothing moves; in the second it outputs 11,
which goes to Machine 0; in the third Machine 0 passes 11 on and Machine 1 halts. -/
theorem test_feedback_goes_on_after_a_blocked_machine :
    (feedbackLoop 7 3 [start 0 [5] [3, 20, 4, 20, 1105, 1, 0], start 0 [] [3, 20, 3, 21, 1, 20, 21, 22, 4, 22, 99]] 6).map
      (fun r => (r.1.map fun s => (s.status, s.input), r.2)) = .ok ([(.paused, []), (.halted, [11])], some 11) := by decide

/-! ## Witnesses: states and operands that meet the obligations' hypotheses -/

/-- Two Words at the ends of the range, and a Program that is refused. -/
theorem test_witness_ConstructedMachineValues :
    (Config.standard.legal = true ∧ (∀ v ∈ [(9223372036854775807 : Int), -9223372036854775808], Config.standard.inRange v) ∧
      [(9223372036854775807 : Int), -9223372036854775808].length ≤ Config.standard.addrMax + 1) ∧
    (9223372036854775808 : Int) ∈ [(9223372036854775808 : Int)] ∧ ¬ Config.standard.inRange 9223372036854775808 := by decide

theorem test_witness_ReloadedMachineValues :
    (∀ v ∈ [(99 : Int), -9223372036854775808], (start 3 [1] [99]).config.inRange v) ∧
    [(99 : Int), -9223372036854775808].length ≤ (start 3 [1] [99]).config.addrMax + 1 := by decide

theorem test_witness_OnlyReloadLeavesTerminal :
    ∃ t, ({ start 0 [] [99] with status := .halted } : State).status.terminal = true ∧
      ({ start 0 [] [99] with status := .halted } : State).Does (.reload [99] .clear) t ∧ t.status.terminal = false :=
  ⟨start 0 [] [99], by decide, by show _ = _; decide, by decide⟩

theorem test_witness_CanonicalMemoriesAgree :
    Memory.wf (Memory.write [(2, 4)] 1 3) = true ∧ Memory.wf [(1, 3), (2, 4)] = true ∧
      ∀ a, (Memory.write [(2, 4)] 1 3).read a = Memory.read [(1, 3), (2, 4)] a :=
  ⟨by decide, by decide, fun _ => rfl⟩

/-- Past the last address; at it, beyond the image; the last word of the image; beyond the image under `sparse`. -/
theorem test_witness_InstructionStreamRead :
    (start 0 [] [1]).config.addrMax < 9223372036854775808 ∧
    (9223372036854775807 ≤ (start 0 [] [1]).config.addrMax ∧ (start 0 [] [1]).imageLen ≤ 9223372036854775807 ∧
      (start 0 [] [1]).config.fetchBeyondImage = .fault) ∧
    (0 ≤ (start 0 [] [1]).config.addrMax ∧ 0 < (start 0 [] [1]).imageLen) ∧
    (9223372036854775807 ≤ (startAt 0 [1]).config.addrMax ∧ (startAt 0 [1]).config.fetchBeyondImage = .sparse) := by decide

theorem test_witness_FetchSeesEveryWrite :
    Memory.wf (start 0 [] [1002, 4, 3, 4, 33]).mem = true ∧ (start 0 [] [1002, 4, 3, 4, 33]).fetch 4 = .ok 33 := by decide

/-- Just past each end of the Word range, WORD_MIN and -1, 0 and WORD_MAX. -/
theorem test_witness_AddressingModes :
    (¬ State.reset.config.inRange 9223372036854775808 ∧ ¬ State.reset.config.inRange (-9223372036854775809)) ∧
    (State.reset.config.inRange (-9223372036854775808) ∧ (-9223372036854775808 : Int) < 0) ∧
    (State.reset.config.inRange (-1) ∧ (-1 : Int) < 0) ∧
    ((0 : Int) ≤ 0 ∧ 0 ≤ State.reset.config.wordMax) ∧
    ((0 : Int) ≤ 9223372036854775807 ∧ 9223372036854775807 ≤ State.reset.config.wordMax) := by decide

/-- Property 3 of vector PROPS: address 50 from base 45. -/
theorem test_witness_ModesReachTheSameCells :
    (start 45 [] [99]).config.inRange (((50 : Nat) : Int) - (start 45 [] [99]).base) ∧
    Memory.wf (start 45 [] [99]).mem = true ∧ 50 ≤ (start 45 [] [99]).config.addrMax := by decide

theorem test_witness_EncodeOfDecode : decode [1206, 0, 12, 99] = .ok (.jz (.relative 0) (.immediate 12), [99]) := by decide

/-- One word of each width. -/
theorem test_witness_WidthFromOpcodeAlone :
    ((∃ i rest, decode [22208, 1, 2, 3] = .ok (i, rest)) ∧ (22208 : Int) % 100 = 8) ∧
    ((∃ i rest, decode [2206, 1, 2] = .ok (i, rest)) ∧ (2206 : Int) % 100 = 6) ∧
    ((∃ i rest, decode [209, 1] = .ok (i, rest)) ∧ (209 : Int) % 100 = 9) ∧
    ((∃ i rest, decode [99] = .ok (i, rest)) ∧ (99 : Int) % 100 = 99) :=
  ⟨⟨⟨_, _, rfl⟩, by decide⟩, ⟨⟨_, _, rfl⟩, by decide⟩, ⟨⟨_, _, rfl⟩, by decide⟩, ⟨_, _, rfl⟩, by decide⟩

/-- A negative word, opcode 0, opcode 10 and opcode 98 at pc. -/
theorem test_witness_UnknownOpcodesFault :
    (start 0 [] [-1]).status.terminal = false ∧ (start 0 [] [-1]).fetch 0 = .ok (-1) ∧
    ((start 0 [] [100]).fetch 0 = .ok 100 ∧ ¬ (1 ≤ (100 : Int) % 100 ∧ (100 : Int) % 100 ≤ 9 ∨ (100 : Int) % 100 = 99)) ∧
    ((start 0 [] [10]).fetch 0 = .ok 10 ∧ ¬ (1 ≤ (10 : Int) % 100 ∧ (10 : Int) % 100 ≤ 9 ∨ (10 : Int) % 100 = 99)) ∧
    ((start 0 [] [98]).fetch 0 = .ok 98 ∧ ¬ (1 ≤ (98 : Int) % 100 ∧ (98 : Int) % 100 ≤ 9 ∨ (98 : Int) % 100 = 99)) := by
  decide

/-- The three clauses: a word of 100000 or more, a digit of 3, a digit for an absent parameter. -/
theorem test_witness_IllegalModesFault :
    (start 0 [] [100001]).status.terminal = false ∧
    ((start 0 [] [100001]).fetch 0 = .ok 100001 ∧ Opcode.ofNumber ((100001 : Int).toNat % 100) = some .add ∧
      (100000 : Int) ≤ 100001) ∧
    ((start 0 [] [30002]).fetch 0 = .ok 30002 ∧ Opcode.ofNumber ((30002 : Int).toNat % 100) = some .mul ∧
      3 ≤ Opcode.nparams .mul ∧ 3 ≤ digit (3 + 1) (30002 : Int).toNat) ∧
    ((start 0 [] [199]).fetch 0 = .ok 199 ∧ Opcode.ofNumber ((199 : Int).toNat % 100) = some .hlt ∧
      Opcode.nparams .hlt < 1 ∧ digit (1 + 1) (199 : Int).toNat ≠ 0) := by decide

/-- Vectors ADD9 and IN5, with every parameter word fetched. -/
theorem test_witness_ImmediateDestinationsFault :
    (start 0 [] [11101, 1, 1, 0, 99]).status.terminal = false ∧
    (start 0 [] [11101, 1, 1, 0, 99]).fetch 0 = .ok ((1 : Int) + 100 * 1 + 1000 * 1 + 10000) ∧
    (start 0 [] [11101, 1, 1, 0, 99]).fetch (0 + 1) = .ok 1 ∧ (start 0 [] [11101, 1, 1, 0, 99]).fetch (0 + 2) = .ok 1 ∧
    (start 0 [] [11101, 1, 1, 0, 99]).fetch (0 + 3) = .ok 0 ∧
    (start 0 [1] [103, 3, 99, 0]).fetch 0 = .ok 103 ∧ (start 0 [1] [103, 3, 99, 0]).fetch (0 + 1) = .ok 3 := by decide

/-- The instruction word beyond the image, and the third parameter of a word whose destination is immediate. -/
theorem test_witness_FetchFaultOrder :
    State.reset.status.terminal = false ∧ State.reset.fetch 0 = .error ⟨.fetchOutOfImage, 0⟩ ∧
    (start 0 [] [11101, 1, 1]).fetch 0 = .ok 11101 ∧
    decodeHeader 11101 = .ok ⟨.add, .immediate, .immediate, .immediate⟩ ∧ 3 ≤ Opcode.nparams .add ∧
    (start 0 [] [11101, 1, 1]).fetch (0 + 1) = .ok 1 ∧ (start 0 [] [11101, 1, 1]).fetch (0 + 2) = .ok 1 ∧
    (start 0 [] [11101, 1, 1]).fetch (0 + 3) = .error ⟨.fetchOutOfImage, 3⟩ := by decide

theorem test_witness_StepRunsTheDecodedInstruction :
    (start 0 [] [204, 1]).status.terminal = false ∧ encode (.out (.relative 1)) = [204, 1] ∧
    (start 0 [] [204, 1]).fetch (0 + 0) = .ok 204 ∧ (start 0 [] [204, 1]).fetch (0 + 1) = .ok 1 := by decide

/-- A blocked Machine whose IN has its destination and no input. -/
theorem test_witness_RunsThatChangeNothing :
    ({ start 0 [] [99] with status := .halted } : State).status = .halted ∧
    ({ start 0 [] [3, 3] with status := .pendingInput } : State).BlockedAtIn ∧
    ({ start 0 [] [3, 3] with status := .pendingInput } : State).status = .pendingInput ∧
    ({ start 0 [] [3, 3] with status := .pendingInput } : State).input = [] :=
  ⟨by decide, fun _ => ⟨.position 3, 3, by decide, by decide⟩, by decide, by decide⟩

/-- A step that blocks, and a push to the blocked Machine. -/
theorem test_witness_PendingMeansBlockedAtIn :
    (nextOf (step (start 0 [] [3, 3]))).map State.status = some .pendingInput ∧
    ({ start 0 [] [3, 3] with status := .pendingInput } : State).Does (.pushInput 7)
      { start 0 [7] [3, 3] with status := .pendingInput } :=
  ⟨by decide, by show _ = _; decide⟩

theorem test_witness_FaultsArePrecise :
    (start 0 [] [1, -1, 0, 0, 99]).status.terminal = false ∧
    (nextOf (step (start 0 [] [1, -1, 0, 0, 99]))).map State.status = some .faulted := by decide

/-- The three statuses a step of S3, S1 and HLT can end in. -/
theorem test_witness_StatusAfterAStep :
    ((start 0 [] [99]).status.terminal = false ∧ (start 0 [] [99]).fetchInstr = .ok .hlt ∧
      (start 0 [] [99]).pc + 1 ≤ (start 0 [] [99]).config.addrMax) ∧
    ((startAt 9223372036854775806 [99]).fetchInstr = .ok .hlt ∧
      (startAt 9223372036854775806 [99]).pc + 1 = (startAt 9223372036854775806 [99]).config.addrMax) ∧
    ((start 0 [] [3, 0]).fetchInstr = .ok (.inp (.position 0)) ∧ (start 0 [] [3, 0]).destAddress (.position 0) = .ok 0 ∧
      (start 0 [] [3, 0]).input = []) := by decide

theorem test_witness_OnlyAdjChangesBase :
    (nextOf (step (start 0 [] [109, 5, 99]))).map State.base ≠ some (start 0 [] [109, 5, 99]).base := by decide

theorem test_witness_DevicesOnlyByInAndOut :
    (nextOf (step (start 0 [42] [3, 3, 99, 0]))).map State.input ≠ some (start 0 [42] [3, 3, 99, 0]).input ∧
    (nextOf (step (start 0 [] [104, -5, 99]))).map State.output ≠ some (start 0 [] [104, -5, 99]).output := by decide

/-- The invariant's hypothesis: reset, and a Machine with words everywhere. -/
theorem test_witness_Inv : State.reset.Inv ∧ (start (-1) [1] [3, 0]).Inv ∧ (start (-1) [1] [3, 0]).hostVisible = true :=
  ⟨⟨by decide, by decide, by decide, by decide, by decide, by decide, by decide, by decide, by decide,
      fun _ h => nomatch h⟩,
    ⟨by decide, by decide, by decide, by decide, by decide, by decide, by decide, by decide, by decide,
      fun _ h => nomatch h⟩, by decide⟩

/-- `StepKeepsInvariant` and `HostCommandsKeepInvariant`: a step, and a push, from that Machine. -/
theorem test_witness_StepKeepsInvariant : (nextOf (step (start (-1) [1] [3, 0]))).isSome = true := by decide

theorem test_witness_HostCommandsKeepInvariant :
    (start (-1) [1] [3, 0]).Does (.pushInput 2) (start (-1) [1, 2] [3, 0]) := by show _ = _; decide

/-- ADD at the ends: the sum WORD_MAX and one more, the pc whose successor is ADDR_MAX and the pc after it. -/
theorem test_witness_AddResult :
    ((start 0 [] []).readOperand (.immediate 9223372036854775806) = .ok 9223372036854775806 ∧
      (start 0 [] []).readOperand (.immediate 1) = .ok 1 ∧ (start 0 [] []).readOperand (.immediate 2) = .ok 2 ∧
      (start 0 [] []).destAddress (.position 0) = .ok 0) ∧
    (start 0 [] []).config.inRange (9223372036854775806 + 1) ∧ ¬ (start 0 [] []).config.inRange (9223372036854775806 + 2) ∧
    (startAt 9223372036854775803 []).pc + 4 ≤ (startAt 9223372036854775803 []).config.addrMax ∧
    (startAt 9223372036854775804 []).config.addrMax < (startAt 9223372036854775804 []).pc + 4 := by decide

/-- MUL at the ends: the product WORD_MIN and WORD_MAX + 1 (vectors MUL7, MUL9). -/
theorem test_witness_MulResult :
    ((start 0 [] []).readOperand (.immediate (-4611686018427387904)) = .ok (-4611686018427387904) ∧
      (start 0 [] []).readOperand (.immediate 2) = .ok 2 ∧
      (start 0 [] []).readOperand (.immediate (-2)) = .ok (-2) ∧ (start 0 [] []).destAddress (.relative 0) = .ok 0) ∧
    (start 0 [] []).config.inRange (-4611686018427387904 * 2) ∧
    ¬ (start 0 [] []).config.inRange (-4611686018427387904 * -2) := by decide

/-- LT and EQ: below, equal and above, in each mode of a source. -/
theorem test_witness_LtResult_EqResult :
    (start 1 [] [7, 8]).readOperand (.position 0) = .ok 7 ∧ (start 1 [] [7, 8]).readOperand (.relative 0) = .ok 8 ∧
    (start 1 [] [7, 8]).readOperand (.immediate 7) = .ok 7 ∧ (start 1 [] [7, 8]).destAddress (.relative (-1)) = .ok 0 ∧
    (start 1 [] [7, 8]).pc + 4 ≤ (start 1 [] [7, 8]).config.addrMax ∧
    (7 : Word) < 8 ∧ (8 : Word) ≤ 8 ∧ (7 : Word) ≠ 8 ∧
    (startAt 9223372036854775804 []).config.addrMax < (startAt 9223372036854775804 []).pc + 4 := by decide

/-- IN with a word and with none, at the last pc that can advance and at the first that cannot. -/
theorem test_witness_InResult :
    (start 0 [5, 6] []).destAddress (.position 9223372036854775807) = .ok 9223372036854775807 ∧
    (start 0 [5, 6] []).input = 5 :: [6] ∧ (start 0 [] []).destAddress (.position 0) = .ok 0 ∧ (start 0 [] []).input = [] ∧
    (startAt 9223372036854775805 []).pc + 2 ≤ (startAt 9223372036854775805 []).config.addrMax ∧
    ({ startAt 9223372036854775806 [] with input := [5] } : State).input ≠ [] ∧
    ({ startAt 9223372036854775806 [] with input := [5] } : State).config.addrMax <
      ({ startAt 9223372036854775806 [] with input := [5] } : State).pc + 2 := by decide

theorem test_witness_OutResult :
    (startAt 9223372036854775805 []).readOperand (.immediate 7) = .ok 7 ∧
    (startAt 9223372036854775805 []).pc + 2 ≤ (startAt 9223372036854775805 []).config.addrMax ∧
    (startAt 9223372036854775806 []).readOperand (.immediate 7) = .ok 7 ∧
    (startAt 9223372036854775806 []).config.addrMax < (startAt 9223372036854775806 []).pc + 2 := by decide

/-- JNZ and JZ: taken to 0, taken to -1, not taken at the last pc that can advance and at the first that cannot. -/
theorem test_witness_JnzResult_JzResult :
    (startAt 9223372036854775804 []).readOperand (.immediate 1) = .ok 1 ∧
    (startAt 9223372036854775804 []).readOperand (.immediate 0) = .ok 0 ∧
    (startAt 9223372036854775804 []).readOperand (.immediate (-1)) = .ok (-1) ∧
    (1 : Word) ≠ 0 ∧ (0 : Word) ≤ 0 ∧ (-1 : Word) < 0 ∧
    (startAt 9223372036854775804 []).pc + 3 ≤ (startAt 9223372036854775804 []).config.addrMax ∧
    (startAt 9223372036854775805 []).readOperand (.immediate 0) = .ok 0 ∧
    (startAt 9223372036854775805 []).config.addrMax < (startAt 9223372036854775805 []).pc + 3 := by decide

/-- ADJ: the base WORD_MIN, one less, and the pc that cannot advance. -/
theorem test_witness_AdjResult :
    (start (-9223372036854775807) [] []).readOperand (.immediate (-1)) = .ok (-1) ∧
    (start (-9223372036854775807) [] []).config.inRange ((start (-9223372036854775807) [] []).base + -1) ∧
    (start (-9223372036854775807) [] []).pc + 2 ≤ (start (-9223372036854775807) [] []).config.addrMax ∧
    ¬ (start (-9223372036854775808) [] []).config.inRange ((start (-9223372036854775808) [] []).base + -1) ∧
    (startAt 9223372036854775806 []).config.addrMax < (startAt 9223372036854775806 []).pc + 2 := by decide

theorem test_witness_HltResult :
    (startAt 9223372036854775806 []).pc + 1 ≤ (startAt 9223372036854775806 []).config.addrMax ∧
    (startAt 9223372036854775807 []).config.addrMax < (startAt 9223372036854775807 []).pc + 1 := by decide

/-- Each parameter of a three-operand instruction failing in turn, with the same report; a destination alone. -/
theorem test_witness_OperandFaultOrder :
    State.reset.readOperand (.position (-1)) = .error ⟨.negativeAddress, -1⟩ ∧
    State.reset.readOperand (.immediate 1) = .ok 1 ∧
    State.reset.destAddress (.relative (-1)) = .error ⟨.negativeAddress, -1⟩ := by decide

/-- Each clause: a step of ADD, IN with and without a word, OUT, JNZ taken and not, HLT, that does not fault. -/
theorem test_witness_PcAfterEachInstruction :
    (nextOf (exec (.add (.immediate 1) (.immediate 1) (.position 0)) State.reset)).map State.status = some .paused ∧
    (nextOf (exec (.inp (.position 0)) (start 0 [1] []))).map State.status = some .paused ∧
    (nextOf (exec (.inp (.position 0)) State.reset)).map State.status = some .pendingInput ∧
    (nextOf (exec (.out (.immediate 1)) State.reset)).map State.status = some .paused ∧
    (nextOf (exec (.jnz (.immediate 1) (.immediate 0)) State.reset)).map State.status = some .paused ∧
    (nextOf (exec (.jz (.immediate 1) (.immediate 0)) State.reset)).map State.status = some .paused ∧
    (nextOf (exec .hlt State.reset)).map State.status = some .halted := by decide

/-- A store that lands, and one whose destination is refused. -/
theorem test_witness_StoringFrame :
    Memory.wf State.reset.mem = true ∧ State.reset.destAddress (.position 7) = .ok 7 ∧
    (nextOf (exec (.mul (.immediate 2) (.immediate 3) (.position 7)) State.reset)).map (fun t => t.memRead 7) = some 6 ∧
    State.reset.destAddress (.position (-7)) = .error ⟨.negativeAddress, -7⟩ ∧
    (nextOf (exec (.inp (.position (-7))) State.reset)).map State.status = some .faulted := by decide

theorem test_witness_NonStoringFrame :
    (nextOf (exec (.out (.immediate 3)) State.reset)).map State.output = some [3] ∧
    (nextOf (exec (.adj (.immediate 3)) State.reset)).map State.base = some 3 := by decide

/-- The hypothesis `run … = .returned t` of the statements about run operations, with a resume that completes. -/
theorem test_witness_runs :
    (∀ op ∈ [RunOp.step, .runToOutput, .runToAnyIO, .runToCompletion],
      runEnd op 3 (start 0 [] [3, 9, 4, 9, 99]) = some (.pendingInput, 0, [], [])) ∧
    (start 0 [] [3, 9, 4, 9, 99]).status.terminal = false ∧
    runEnd .runToCompletion 3 { start 0 [] [3, 9, 4, 9, 99] with status := .pendingInput, input := [] ++ [7] } =
      some (.halted, 5, [], [7]) := by decide

/-- `StepsSplitRuns`, second clause: three steps of that program reach Halted. -/
theorem test_witness_StepsSplitRuns :
    (nextOf (Host.Core.run Sys2Proof.core 3 (start 0 [7] [3, 9, 4, 9, 99]))).map State.status = some .halted := by decide

/-- JNZ with an immediate target, and JZ with its target in memory, at their own pc. -/
theorem test_witness_JumpToItselfNeverReturns :
    RunOp.runToCompletion ≠ RunOp.step ∧ (start 0 [] [1105, 1, 0]).status.terminal = false ∧
    ((start 0 [] [1105, 1, 0]).fetchInstr = .ok (.jnz (.immediate 1) (.immediate 0)) ∧ (1 : Word) ≠ 0 ∧
      (start 0 [] [1105, 1, 0]).readOperand (.immediate 1) = .ok 1 ∧
      (start 0 [] [1105, 1, 0]).readOperand (.immediate 0) = .ok ((start 0 [] [1105, 1, 0]).pc : Int)) ∧
    ((start 3 [] [2006, 4, 0]).fetchInstr = .ok (.jz (.position 4) (.relative 0)) ∧
      (start 3 [] [2006, 4, 0]).readOperand (.position 4) = .ok 0 ∧
      (start 3 [] [2006, 4, 0]).readOperand (.relative 0) = .ok ((start 3 [] [2006, 4, 0]).pc : Int)) := by decide

/-- The ends of the Word range, and the integer past each. -/
theorem test_witness_PushInputOperation :
    State.reset.config.inRange 9223372036854775807 ∧ State.reset.config.inRange (-9223372036854775808) ∧
    ¬ State.reset.config.inRange 9223372036854775808 ∧ ¬ State.reset.config.inRange (-9223372036854775809) := by decide

/-- Codes 10, 32 and 126 are taken, 9, 11, 31 and 127 are not. -/
theorem test_witness_PushAsciiOperation :
    State.reset.config.legal = true ∧
    (∀ c ∈ ['\n', ' ', '~'], c.toNat = 10 ∨ 32 ≤ c.toNat ∧ c.toNat ≤ 126) ∧
    (∀ c ∈ ['\t', '\x0b', '\x1f', '\x7f'],
      ¬ (c.toNat = 10 ∨ 32 ≤ c.toNat ∧ c.toNat ≤ 126)) ∧
    (∀ c ∈ ['\x00', '\x7f'], c.toNat ≤ 127) ∧ ((-1 : Word) < 0 ∧ (127 : Word) < 128) :=
  ⟨by decide, by simp, by simp, by simp, by decide⟩

theorem test_witness_PopOutputOperation :
    ({ State.reset with output := [7, 8] } : State).output = 7 :: [8] ∧ State.reset.output = [] := by decide

theorem test_witness_HostReads :
    ((0 : Int) ≤ 0 ∧ (0 : Int) ≤ State.reset.config.addrMax) ∧
    ((9223372036854775807 : Int) ≤ State.reset.config.addrMax) ∧
    ((-1 : Int) < 0) ∧ ((State.reset.config.addrMax : Int) < 9223372036854775808) := by decide

theorem test_witness_LoadOfToText :
    ∀ v ∈ [(9223372036854775807 : Word), -9223372036854775808, 0], Config.standard.inRange v := by decide

/-- An equal width, a wider one, and a step that does not fault. -/
theorem test_witness_WiderWordsSameResult :
    (start 0 [] [109, 5]).config.wordBits ≤ 64 ∧ (start 0 [] [109, 5]).config.wordBits ≤ 128 ∧
    (nextOf (step (start 0 [] [109, 5]))).map State.status = some .paused := by decide

theorem test_witness_SparseFetchSameResult :
    (start 0 [] [109, 5]).config.fetchBeyondImage = .fault ∧
    (nextOf (step (start 0 [] [109, 5]))).map State.status = some .paused := by decide

/-- Machine 0 sends the packet (1, 8, 9) to Machine 1, which gets 8 and then 9. -/
theorem test_witness_VisitTouchesOneMachine :
    (visit ⟨-1, .runToCompletion, .pair⟩ 4
        ⟨[start 0 [] [104, 1, 104, 8, 104, 9, 99], start 0 [5] [99]], none, none, false⟩ 0).map
      (fun r => (r.1.machines[1]?.map State.input, r.2)) = .ok (some [5, 8, 9], 1) ∧ (1 : Nat) ≠ 0 ∧
    [start 0 [] [104, 1, 104, 8, 104, 9, 99], start 0 [5] [99]][1]? = some (start 0 [5] [99]) := by decide

end Sys2Proof.Tests
end

section
/-! SUPPORT. How an instruction that does not fault moves `pc` (10_state.md R20), and what a run operation returns
(10_state.md R25). -/

namespace Sys2Proof.Machine

/-! ## What `exec` can end in -/

/-- An instruction that ends in `t` without a fault completed, blocked or halted (60_exceptions.md R95). -/
theorem exec_not_faulted_cases {i : Instr} {s t : State} (h : exec i s = .next t) (hf : t.status ≠ .faulted) :
    (∃ k u, ruleOf i s = .done k u ∧ t = u.setStatus .paused) ∨
      (ruleOf i s = .blocked ∧ t = s.setStatus .pendingInput) ∨
      ∃ u, ruleOf i s = .halt u ∧ t = u.setStatus .halted := by
  rw [exec_eq_settled] at h
  obtain rfl : s.settled (ruleOf i s) = t := by simpa using h
  cases ho : ruleOf i s with
  | done k u => exact .inl ⟨k, u, rfl, rfl⟩
  | blocked => exact .inr (.inl ⟨rfl, rfl⟩)
  | halt u => exact .inr (.inr ⟨u, rfl, rfl⟩)
  | fault r => exact absurd (by rw [ho]; rfl) hf

/-- An instruction other than IN and HLT that does not fault completed. -/
theorem exec_not_faulted_done {i : Instr} {s t : State} (hin : ∀ d, i ≠ .inp d) (hhlt : i ≠ .hlt)
    (h : exec i s = .next t) (hf : t.status ≠ .faulted) :
    ∃ k u, ruleOf i s = .done k u ∧ t = u.setStatus .paused := by
  obtain hdone | ⟨hblocked, -⟩ | ⟨u, hhalt, -⟩ := exec_not_faulted_cases h hf
  · exact hdone
  · obtain ⟨⟨d, hd⟩, -⟩ := ruleOf_eq_blocked i s hblocked
    exact absurd hd (hin d)
  · exact absurd (ruleOf_eq_halt i s u hhalt).1 hhlt

/-! ## The rules by their shape -/

/-- ADD, MUL, LT and EQ share one rule, up to the result they compute. -/
theorem ruleOf_threeOperand {i : Instr} {a b : Source} {d : Destination}
    (hi : i = .add a b d ∨ i = .mul a b d ∨ i = .lt a b d ∨ i = .eq a b d) (s : State) :
    ∃ f, ruleOf i s = threeOperandRule f a b d s := by
  rcases hi with rfl | rfl | rfl | rfl <;> exact ⟨_, rfl⟩

/-- JNZ and JZ share one rule, up to the condition: JNZ jumps on a non-zero operand and JZ on zero. -/
theorem ruleOf_jump {i : Instr} {a target : Source} (hi : i = .jnz a target ∨ i = .jz a target) (s : State) :
    ∃ taken, ruleOf i s = jumpRule taken a target s ∧ ∀ v, taken v = true ↔ (i = .jnz a target ↔ v ≠ 0) := by
  rcases hi with rfl | rfl
  · exact ⟨isNonzero, rfl, by simp [isNonzero]⟩
  · exact ⟨isZero, rfl, by simp [isZero]⟩

/-! ## `pc` after each instruction (10_state.md R20) -/

theorem exec_threeOperand_pc {i : Instr} {s t : State} {a b : Source} {d : Destination}
    (hi : i = .add a b d ∨ i = .mul a b d ∨ i = .lt a b d ∨ i = .eq a b d) (h : exec i s = .next t)
    (hf : t.status ≠ .faulted) : t.pc = s.pc + 4 := by
  obtain ⟨_, u, hu, rfl⟩ :=
    exec_not_faulted_done (by rintro _ rfl; simp at hi) (by rintro rfl; simp at hi) h hf
  obtain ⟨f, hrule⟩ := ruleOf_threeOperand hi s
  obtain ⟨-, _, _, _, _, -, -, -, -, -, rfl⟩ := (threeOperandRule_eq_done ..).1 (hrule ▸ hu)
  rfl

/-- IN moves past itself when it takes a word and stays at itself when it blocks. -/
theorem exec_inp_pc {s t : State} {d : Destination} (h : exec (.inp d) s = .next t) (hf : t.status ≠ .faulted) :
    (s.input ≠ [] → t.pc = s.pc + 2) ∧ (s.input = [] → t.pc = s.pc) := by
  obtain ⟨_, u, hdone, rfl⟩ | ⟨hblocked, rfl⟩ | ⟨u, hhalt, -⟩ := exec_not_faulted_cases h hf
  · obtain ⟨-, _, _, _, -, hinput, -, rfl⟩ := (inRule_eq_done ..).1 hdone
    simp [hinput]
  · obtain ⟨-, hinput⟩ := (inRule_eq_blocked ..).1 hblocked
    simp [hinput]
  · exact absurd hhalt (inRule_not_halt d s u)

theorem exec_out_pc {s t : State} {a : Source} (h : exec (.out a) s = .next t) (hf : t.status ≠ .faulted) :
    t.pc = s.pc + 2 := by
  obtain ⟨_, u, hu, rfl⟩ := exec_not_faulted_done (by simp) (by simp) h hf
  obtain ⟨-, _, -, -, rfl⟩ := (outRule_eq_done ..).1 hu
  rfl

theorem exec_adj_pc {s t : State} {a : Source} (h : exec (.adj a) s = .next t) (hf : t.status ≠ .faulted) :
    t.pc = s.pc + 2 := by
  obtain ⟨_, u, hu, rfl⟩ := exec_not_faulted_done (by simp) (by simp) h hf
  obtain ⟨-, _, -, -, -, rfl⟩ := (adjRule_eq_done ..).1 hu
  rfl

/-- A jump goes to its target exactly when its condition holds. -/
theorem exec_jump_pc {i : Instr} {s t : State} {a target : Source} (hi : i = .jnz a target ∨ i = .jz a target)
    (h : exec i s = .next t) (hf : t.status ≠ .faulted) :
    ∃ v w, s.readOperand a = .ok v ∧ s.readOperand target = .ok w ∧
      ((i = .jnz a target ↔ v ≠ 0) → (t.pc : Int) = w) ∧ (¬ (i = .jnz a target ↔ v ≠ 0) → t.pc = s.pc + 3) := by
  obtain ⟨_, u, hu, rfl⟩ :=
    exec_not_faulted_done (by rintro _ rfl; simp at hi) (by rintro rfl; simp at hi) h hf
  obtain ⟨taken, hrule, htaken⟩ := ruleOf_jump hi s
  obtain ⟨-, v, w, hv, hw, hpc⟩ := (jumpRule_eq_done ..).1 (hrule ▸ hu)
  refine ⟨v, w, hv, hw, ?_⟩
  rw [← htaken v]
  obtain ⟨ht, hnonneg, rfl⟩ | ⟨ht, -, rfl⟩ := hpc
  · exact ⟨fun _ => Int.toNat_of_nonneg hnonneg, fun hn => absurd ht hn⟩
  · exact ⟨fun hy => by simp [ht] at hy, fun _ => rfl⟩

theorem exec_hlt_pc {s t : State} (h : exec .hlt s = .next t) (hf : t.status ≠ .faulted) : t.pc = s.pc + 1 := by
  obtain ⟨k, u, hdone, -⟩ | ⟨hblocked, -⟩ | ⟨u, hhalt, rfl⟩ := exec_not_faulted_cases h hf
  · exact absurd hdone (hltRule_not_done s u k)
  · exact absurd hblocked (hltRule_not_blocked s)
  · obtain ⟨-, rfl⟩ := (hltRule_eq_halt s u).1 hhalt
    rfl

/-- Settles O40: each clause is the `pc` lemma of its instructions. -/
theorem pcAfterEachInstruction : Obligations.PcAfterEachInstruction := by
  intro s t
  refine ⟨fun a b d i hi => exec_threeOperand_pc hi, fun d => exec_inp_pc, ?_, fun a target i hi => exec_jump_pc hi,
    exec_hlt_pc⟩
  rintro a i (rfl | rfl)
  · exact exec_out_pc
  · exact exec_adj_pc

/-! ## What a run operation returns -/

/-- Settle never leaves Running (60_exceptions.md R95). -/
theorem State.settled_status_ne_running (s : State) (o : InstrOutcome) : (s.settled o).status ≠ .running := by
  cases o <;> simp [State.settled]

/-- One turn of the loop returns exactly when the loop ends with this instruction, settled, or a later turn returns
after an instruction that is no stop (60_exceptions.md R98 to R100). -/
theorem runLoop_succ_eq_returned (op : RunOp) (n : Nat) (s t : State) :
    runLoop op (n + 1) s = .returned t ↔
      ((∀ k u, exec1 s = .done k u → op.stopsAfter k = true) ∧ t = s.settled (exec1 s)) ∨
        ∃ k u, exec1 s = .done k u ∧ op.stopsAfter k = false ∧ runLoop op n u = .returned t := by
  rw [runLoop]
  cases exec1 s with
  | done k u => cases hk : op.stopsAfter k <;> simp [hk, State.settled, eq_comm (a := t)]
  | blocked => simp [eq_comm (a := t)]
  | halt u => simp [eq_comm (a := t)]
  | fault r => simp [eq_comm (a := t)]

/-- What the loop returns is the settled outcome of the last instruction it executed. -/
theorem runLoop_returned_settled {op : RunOp} {n : Nat} {s t : State} (h : runLoop op n s = .returned t) :
    ∃ u : State, t = u.settled (exec1 u) := by
  induction n generalizing s with
  | zero => cases h
  | succ n ih =>
    obtain ⟨-, ht⟩ | ⟨_, _, -, -, hrest⟩ := (runLoop_succ_eq_returned op n s t).1 h
    · exact ⟨s, ht⟩
    · exact ih hrest

/-- A run operation returns in a terminal status at once, and otherwise from its loop (60_exceptions.md R96). -/
theorem run_eq_returned (op : RunOp) (fuel : Nat) (s t : State) :
    run op fuel s = .returned t ↔
      (s.status.terminal = true ∧ t = s) ∨
        (s.status.terminal = false ∧ runLoop op fuel (s.setStatus .running) = .returned t) := by
  unfold run
  cases s.status.terminal <;> simp [eq_comm (a := t)]

theorem run_returned_status_ne_running {op : RunOp} {fuel : Nat} {s t : State} (h : run op fuel s = .returned t) :
    t.status ≠ .running := by
  obtain ⟨hterm, rfl⟩ | ⟨-, hloop⟩ := (run_eq_returned op fuel s t).1 h
  · intro hr
    simp [hr, Status.terminal] at hterm
  · obtain ⟨u, rfl⟩ := runLoop_returned_settled hloop
    exact u.settled_status_ne_running _

/-- Settles O43: what a run returns is a terminal state left as it was or a settled outcome (induction on the fuel),
and neither is Running, the one status the statement leaves out. -/
theorem runsNeverEndRunning : Obligations.RunsNeverEndRunning := by
  intro op fuel s t h
  have hne := run_returned_status_ne_running h
  cases hs : t.status <;> simp [hs] at hne ⊢

end Sys2Proof.Machine
end

section
/-! SUPPORT. The memory family (20_memory.md): the instruction-stream read (R38), the addressing modes (R40) and the
cells that position and relative mode share (R43). -/

namespace Sys2Proof.Machine

/-! ## The instruction-stream read (20_memory.md R38) -/

theorem State.fetch_of_addrMax_lt {s : State} {a : Nat} (h : s.config.addrMax < a) :
    s.fetch a = .error ⟨.overflow, a⟩ :=
  if_pos h

theorem State.fetch_beyond_image {s : State} {a : Nat} (ha : a ≤ s.config.addrMax) (hl : s.imageLen ≤ a)
    (hf : s.config.fetchBeyondImage = .fault) : s.fetch a = .error ⟨.fetchOutOfImage, a⟩ :=
  (if_neg (Nat.not_lt.2 ha)).trans (if_pos ⟨hl, hf⟩)

theorem State.fetch_of_readable {s : State} {a : Nat} (ha : a ≤ s.config.addrMax)
    (h : a < s.imageLen ∨ s.config.fetchBeyondImage = .sparse) : s.fetch a = .ok (s.memRead a) := by
  refine (State.fetch_eq_ok ..).2 ⟨ha, fun hf => ?_, rfl⟩
  obtain hl | hs := h
  · exact hl
  · simp [hs] at hf

/-- Settles O7: each case is its own lemma about `State.fetch`. -/
theorem instructionStreamRead : Obligations.InstructionStreamRead :=
  fun _ _ => ⟨State.fetch_of_addrMax_lt, State.fetch_beyond_image, State.fetch_of_readable⟩

/-! ## The effective address (20_memory.md R40) -/

theorem State.checkAddress_of_not_inRange {s : State} {a : Int} (h : ¬ s.config.inRange a) :
    s.checkAddress a = .error ⟨.overflow, a⟩ :=
  if_pos h

theorem State.checkAddress_of_neg {s : State} {a : Int} (h : s.config.inRange a) (ha : a < 0) :
    s.checkAddress a = .error ⟨.negativeAddress, a⟩ :=
  (if_neg (not_not_intro h)).trans (if_pos ha)

theorem State.checkAddress_of_nonneg {s : State} {a : Int} (ha : 0 ≤ a) (h : a ≤ s.config.wordMax) :
    s.checkAddress a = .ok a.toNat :=
  (State.checkAddress_eq_ok ..).2 ⟨(Int.toNat_of_nonneg ha).symm, Int.toNat_le.2 h⟩

/-- A source and a destination of one mode and parameter resolve through the same effective address. -/
theorem State.resolve_eq_checkAddress {s : State} {p : Word} {o : Source} {d : Destination} {a : Int}
    (h : (o = .position p ∧ d = .position p ∧ a = p) ∨ (o = .relative p ∧ d = .relative p ∧ a = s.base + p)) :
    s.readOperand o = (s.checkAddress a >>= fun n => .ok (s.memRead n)) ∧ s.destAddress d = s.checkAddress a := by
  rcases h with ⟨rfl, rfl, rfl⟩ | ⟨rfl, rfl, rfl⟩ <;> exact ⟨rfl, rfl⟩

/-- Settles O9: both modes go through `State.checkAddress`, whose three answers are the three clauses. -/
theorem addressingModes : Obligations.AddressingModes := by
  intro s p
  refine ⟨rfl, fun o d a h => ?_⟩
  obtain ⟨hread, hdest⟩ := State.resolve_eq_checkAddress h
  rw [hread, hdest]
  refine ⟨fun hr => ?_, fun hr hneg => ?_, fun hnonneg hmax => ?_⟩
  · simp [State.checkAddress_of_not_inRange hr]
  · simp [State.checkAddress_of_neg hr hneg]
  · simp [State.checkAddress_of_nonneg hnonneg hmax]

/-! ## Position and relative mode (20_memory.md R43) -/

/-- `base + (a - base)` is exact, so it is `a`. -/
theorem State.readOperand_relative_sub_base (s : State) (a : Int) :
    s.readOperand (.relative (a - s.base)) = s.readOperand (.position a) := by
  simp only [State.readOperand, add_sub_cancel]

theorem State.readOperand_position_of_le {s : State} {a : Nat} (h : a ≤ s.config.addrMax) :
    s.readOperand (.position a) = .ok (s.memRead a) := by
  simp [State.readOperand, (State.checkAddress_eq_ok s a a).2 ⟨rfl, h⟩]

/-- A write and a read at one address, as the resolver sees them (20_memory.md R37). -/
theorem State.readOperand_position_memWrite {s : State} {a : Nat} (v : Word) (hwf : Memory.wf s.mem = true)
    (h : a ≤ s.config.addrMax) : (s.memWrite a v).readOperand (.position a) = .ok v := by
  rw [State.readOperand_position_of_le (by simpa using h), State.memRead_memWrite_eq_read,
    Memory.read_write _ _ _ _ hwf, if_pos rfl]

/-- Settles O10: the relative read is the position read of the same address, and a write leaves the base alone. -/
theorem modesReachTheSameCells : Obligations.ModesReachTheSameCells := by
  intro s a _
  refine ⟨(s.readOperand_relative_sub_base a).symm, fun v hwf ha => ?_⟩
  calc (s.memWrite a v).readOperand (.relative ((a : Int) - s.base))
      = (s.memWrite a v).readOperand (.position a) := (s.memWrite a v).readOperand_relative_sub_base a
    _ = .ok v := State.readOperand_position_memWrite v hwf ha

end Sys2Proof.Machine
end

section
/-! SUPPORT. The encoding family (30_encoding.md): what the decoder rejects (R62 to R67), how the step takes the
rejection as a fault, and the legal instruction words (R69). -/

namespace Sys2Proof

/-! ## Words that no opcode names (30_encoding.md R62, R63) -/

theorem Opcode.ofNumber_eq_none (n : Nat) (h : ¬ (1 ≤ n ∧ n ≤ 9 ∨ n = 99)) : Opcode.ofNumber n = none := by
  rw [Option.eq_none_iff_forall_ne_some]
  intro op hop
  obtain rfl := (Opcode.ofNumber_eq_some ..).1 hop
  cases op <;> simp [Opcode.number] at h

theorem decodeHeader_unknownOpcode {w : Int} (h : w < 0 ∨ ¬ (1 ≤ w % 100 ∧ w % 100 ≤ 9 ∨ w % 100 = 99)) :
    decodeHeader w = .error .unknownOpcode := by
  unfold decodeHeader
  split
  · rfl
  · rename_i hw
    have hnat : ((w.toNat : Nat) : Int) = w := Int.toNat_of_nonneg (Int.not_lt.1 hw)
    rw [Opcode.ofNumber_eq_none _ (by omega)]

/-! ## Illegal mode digits (30_encoding.md R64, R65, R66) -/

/-- A mode field is refused for a digit that is no mode (R64) and for a digit of an absent parameter (R65). -/
theorem modeField_eq_none {present : Bool} {d : Nat} (h : present = true ∧ 3 ≤ d ∨ present = false ∧ d ≠ 0) :
    modeField present d = none := by
  rw [Option.eq_none_iff_forall_ne_some]
  intro m hm
  obtain ⟨hd, habsent⟩ := (modeField_eq_some ..).1 hm
  obtain ⟨-, hlarge⟩ | ⟨hfalse, hne⟩ := h
  · have := Laws.toDigit_le m
    omega
  · rw [hd, habsent hfalse] at hne
    exact hne rfl

/-- With a known opcode the word is refused when it is too large (R66) or one of its three mode fields is refused. -/
theorem decodeHeader_illegalMode {w : Word} {op : Opcode} (hw : 0 ≤ w) (hop : Opcode.ofNumber (w.toNat % 100) = some op)
    (h : 100000 ≤ w ∨ ∃ k, 1 ≤ k ∧ k ≤ 3 ∧ modeField (decide (k ≤ op.nparams)) (digit (k + 1) w.toNat) = none) :
    decodeHeader w = .error .illegalMode := by
  unfold decodeHeader
  rw [if_neg (Int.not_lt.2 hw), hop]
  simp only
  split
  · rfl
  · rename_i hsmall
    obtain hlarge | ⟨k, hk1, hk3, hnone⟩ := h
    · exact absurd (Int.le_toNat hw |>.2 hlarge) hsmall
    · split
      · rename_i h1 h2 h3
        obtain rfl | rfl | rfl : k = 1 ∨ k = 2 ∨ k = 3 := by omega
        · exact nomatch hnone.symm.trans h1
        · exact nomatch hnone.symm.trans h2
        · exact nomatch hnone.symm.trans h3
      · rfl

/-! ## The destination of a header (30_encoding.md R67) -/

/-- The mode of the destination parameter; `none` for an opcode that stores nothing (30_encoding.md R57). -/
def Header.destMode (h : Header) : Option Mode :=
  match h.op with
  | .add | .mul | .lt | .eq => some h.m3
  | .inp => some h.m1
  | .out | .jnz | .jz | .adj | .hlt => none

theorem Header.destMode_of_three {h : Header} (hn : h.op.nparams = 3) : h.destMode = some h.m3 := by
  obtain ⟨op, m1, m2, m3⟩ := h
  cases op <;> simp [Opcode.nparams] at hn <;> rfl

/-- Line 9 of R59 refuses an immediate destination. -/
theorem Header.assemble_immediateDestination {h : Header} (hd : h.destMode = some .immediate) (p1 p2 p3 : Word) :
    h.assemble p1 p2 p3 = .error .immediateDestination := by
  obtain ⟨op, m1, m2, m3⟩ := h
  cases op
  case add | mul | lt | eq | inp =>
    obtain rfl := Option.some.inj hd
    rfl
  case out | jnz | jz | adj | hlt => cases hd

/-- A destination that is not immediate is accepted. -/
theorem Destination.exists_ofMode {m : Mode} (hm : m ≠ .immediate) (p : Word) :
    ∃ d, Destination.ofMode m p = .ok d := by
  cases m
  case immediate => exact absurd rfl hm
  case position | relative => exact ⟨_, rfl⟩

/-- Line 9 of R59 refuses nothing else. -/
theorem Header.exists_assemble {h : Header} (hd : h.destMode ≠ some .immediate) (p1 p2 p3 : Word) :
    ∃ i, h.assemble p1 p2 p3 = .ok i := by
  obtain ⟨op, m1, m2, m3⟩ := h
  cases op
  case add | mul | lt | eq =>
    obtain ⟨d, hok⟩ := Destination.exists_ofMode (fun e => hd (congrArg some e)) p3
    exact ⟨_, by simp only [Header.assemble, hok]; rfl⟩
  case inp =>
    obtain ⟨d, hok⟩ := Destination.exists_ofMode (fun e => hd (congrArg some e)) p1
    exact ⟨_, by simp only [Header.assemble, hok]; rfl⟩
  case out | jnz | jz | adj | hlt => exact ⟨_, rfl⟩

/-! ## The words of a header as sums of digits (30_encoding.md R54) -/

theorem headerWord_eq_sum (k a b c : Nat) : headerWord k a b c = (k : Int) + 100 * a + 1000 * b + 10000 * c := by
  simp [headerWord]

/-- The digits 0, 1 and 2 are those of the modes (30_encoding.md R55). -/
theorem Mode.exists_toDigit_iff (x : Int) : (∃ m : Mode, (m.toDigit : Int) = x) ↔ x = 0 ∨ x = 1 ∨ x = 2 := by
  constructor
  · rintro ⟨m, rfl⟩
    cases m <;> decide
  · rintro (rfl | rfl | rfl)
    exacts [⟨.position, rfl⟩, ⟨.immediate, rfl⟩, ⟨.relative, rfl⟩]

theorem Mode.exists_toDigit_ne_immediate_iff (x : Int) :
    (∃ m : Mode, m ≠ .immediate ∧ (m.toDigit : Int) = x) ↔ x = 0 ∨ x = 2 := by
  constructor
  · rintro ⟨m, hm, rfl⟩
    cases m
    exacts [.inl rfl, absurd rfl hm, .inr rfl]
  · rintro (rfl | rfl)
    exacts [⟨.position, by decide, rfl⟩, ⟨.relative, by decide, rfl⟩]

theorem Opcode.exists_three_params_iff (k : Int) :
    (∃ op : Opcode, (op.number : Int) = k ∧ op.nparams = 3) ↔ k = 1 ∨ k = 2 ∨ k = 7 ∨ k = 8 := by
  constructor
  · rintro ⟨op, rfl, hn⟩
    cases op <;> simp [Opcode.number, Opcode.nparams] at hn ⊢
  · rintro (rfl | rfl | rfl | rfl)
    exacts [⟨.add, rfl, rfl⟩, ⟨.mul, rfl, rfl⟩, ⟨.lt, rfl, rfl⟩, ⟨.eq, rfl, rfl⟩]

/-- A word built from an opcode's number and mode digits, 0 for every absent parameter, has that header. -/
theorem decodeHeader_sum (op : Opcode) (m1 m2 m3 : Mode) (h1 : op.nparams < 1 → m1 = .position)
    (h2 : op.nparams < 2 → m2 = .position) (h3 : op.nparams < 3 → m3 = .position) :
    decodeHeader (op.number + 100 * m1.toDigit + 1000 * m2.toDigit + 10000 * m3.toDigit) = .ok ⟨op, m1, m2, m3⟩ :=
  (decodeHeader_eq_ok ..).2 ⟨(headerWord_eq_sum ..).symm, h1, h2, h3⟩

theorem decodeHeader_two_params (op : Opcode) (hn : op.nparams = 2) (m1 m2 : Mode) :
    decodeHeader (op.number + 100 * m1.toDigit + 1000 * m2.toDigit) = .ok ⟨op, m1, m2, .position⟩ := by
  simpa [Mode.toDigit] using decodeHeader_sum op m1 m2 .position (by omega) (by omega) fun _ => rfl

theorem decodeHeader_one_param (op : Opcode) (hn : op.nparams = 1) (m1 : Mode) :
    decodeHeader (op.number + 100 * m1.toDigit) = .ok ⟨op, m1, .position, .position⟩ := by
  simpa [Mode.toDigit] using decodeHeader_sum op m1 .position .position (by omega) (fun _ => rfl) fun _ => rfl

/-- Every choice of a three-parameter opcode and of mode digits is a header, its third mode that of the destination. -/
theorem exists_header_three_params {k a b : Int} (hk : k = 1 ∨ k = 2 ∨ k = 7 ∨ k = 8) (ha : a = 0 ∨ a = 1 ∨ a = 2)
    (hb : b = 0 ∨ b = 1 ∨ b = 2) (m3 : Mode) :
    ∃ h, decodeHeader (k + 100 * a + 1000 * b + 10000 * m3.toDigit) = .ok h ∧ h.op.nparams = 3 ∧
      h.destMode = some m3 := by
  obtain ⟨op, rfl, hn⟩ := (Opcode.exists_three_params_iff k).2 hk
  obtain ⟨m1, rfl⟩ := (Mode.exists_toDigit_iff a).2 ha
  obtain ⟨m2, rfl⟩ := (Mode.exists_toDigit_iff b).2 hb
  exact ⟨⟨op, m1, m2, m3⟩, decodeHeader_sum _ _ _ _ (by omega) (by omega) (by omega), hn, Header.destMode_of_three hn⟩

/-! ## The legal instruction words (30_encoding.md R69) -/

/-- The decode procedure of a word with enough Words behind it succeeds exactly when the word has a header whose
destination is not immediate. -/
theorem exists_decode_four_iff (w p1 p2 p3 : Word) :
    (∃ i rest, decode [w, p1, p2, p3] = .ok (i, rest)) ↔
      ∃ h, decodeHeader w = .ok h ∧ h.destMode ≠ some .immediate := by
  simp only [decode]
  cases hw : decodeHeader w with
  | error r => simp
  | ok h =>
    obtain ⟨q1, q2, q3, rest, hq⟩ :
        ∃ q1 q2 q3 rest, takeParams h.op.nparams [p1, p2, p3] = some (q1, q2, q3, rest) := by
      cases h.op <;> exact ⟨_, _, _, _, rfl⟩
    simp only [hq, Except.ok.injEq, exists_eq_left']
    by_cases hd : h.destMode = some .immediate
    · simp [Header.assemble_immediateDestination hd, hd]
    · obtain ⟨i, hi⟩ := Header.exists_assemble hd q1 q2 q3
      simp [hi, hd]

/-- R69's list: the legal instruction words by opcode and modes. -/
def IsLegalWord (w : Word) : Prop :=
  (∃ k m1 m2 m3 : Int, (k = 1 ∨ k = 2 ∨ k = 7 ∨ k = 8) ∧ (m1 = 0 ∨ m1 = 1 ∨ m1 = 2) ∧
    (m2 = 0 ∨ m2 = 1 ∨ m2 = 2) ∧ (m3 = 0 ∨ m3 = 2) ∧ w = k + 100 * m1 + 1000 * m2 + 10000 * m3) ∨
  (∃ k m1 m2 : Int, (k = 5 ∨ k = 6) ∧ (m1 = 0 ∨ m1 = 1 ∨ m1 = 2) ∧ (m2 = 0 ∨ m2 = 1 ∨ m2 = 2) ∧
    w = k + 100 * m1 + 1000 * m2) ∨
  (∃ k m1 : Int, (k = 4 ∨ k = 9) ∧ (m1 = 0 ∨ m1 = 1 ∨ m1 = 2) ∧ w = k + 100 * m1) ∨
  w = 3 ∨ w = 203 ∨ w = 99

theorem Mode.toDigit_cases (m : Mode) : (m.toDigit : Int) = 0 ∨ (m.toDigit : Int) = 1 ∨ (m.toDigit : Int) = 2 :=
  (Mode.exists_toDigit_iff _).1 ⟨m, rfl⟩

theorem Mode.toDigit_cases_of_ne_immediate {m : Mode} (hm : m ≠ .immediate) :
    (m.toDigit : Int) = 0 ∨ (m.toDigit : Int) = 2 :=
  (Mode.exists_toDigit_ne_immediate_iff _).1 ⟨m, hm, rfl⟩

theorem isLegalWord_of_header {w : Word} {h : Header} (hw : decodeHeader w = .ok h)
    (hd : h.destMode ≠ some .immediate) : IsLegalWord w := by
  obtain ⟨op, m1, m2, m3⟩ := h
  obtain ⟨rfl, h1, h2, h3⟩ := (decodeHeader_eq_ok ..).1 hw
  rw [headerWord_eq_sum]
  cases op
  case add | mul | lt | eq =>
    exact .inl ⟨_, _, _, _, (Opcode.exists_three_params_iff _).1 ⟨_, rfl, rfl⟩, m1.toDigit_cases, m2.toDigit_cases,
      Mode.toDigit_cases_of_ne_immediate (fun e => hd (congrArg some e)), rfl⟩
  case jnz | jz =>
    obtain rfl := h3 (show 2 < 3 by decide)
    exact .inr (.inl ⟨_, _, _, by simp [Opcode.number], m1.toDigit_cases, m2.toDigit_cases, add_zero _⟩)
  case out | adj =>
    obtain rfl := h2 (show 1 < 2 by decide)
    obtain rfl := h3 (show 1 < 3 by decide)
    exact .inr (.inr (.inl ⟨_, _, by simp [Opcode.number], m1.toDigit_cases, (add_zero _).trans (add_zero _)⟩))
  case inp =>
    obtain rfl := h2 (show 1 < 2 by decide)
    obtain rfl := h3 (show 1 < 3 by decide)
    cases m1
    case position => exact .inr (.inr (.inr (.inl rfl)))
    case immediate => exact absurd rfl hd
    case relative => exact .inr (.inr (.inr (.inr (.inl rfl))))
  case hlt =>
    obtain rfl := h1 (show 0 < 1 by decide)
    obtain rfl := h2 (show 0 < 2 by decide)
    obtain rfl := h3 (show 0 < 3 by decide)
    exact .inr (.inr (.inr (.inr (.inr rfl))))

theorem exists_header_of_isLegalWord {w : Word} (h : IsLegalWord w) :
    ∃ h, decodeHeader w = .ok h ∧ h.destMode ≠ some .immediate := by
  obtain ⟨k, a, b, c, hk, ha, hb, hc, rfl⟩ | ⟨k, a, b, hk, ha, hb, rfl⟩ | ⟨k, a, hk, ha, rfl⟩ | rfl | rfl | rfl := h
  · obtain ⟨m3, hm3, rfl⟩ := (Mode.exists_toDigit_ne_immediate_iff c).2 hc
    obtain ⟨h, hw, -, hd⟩ := exists_header_three_params hk ha hb m3
    exact ⟨h, hw, by simpa [hd] using hm3⟩
  · obtain ⟨m1, rfl⟩ := (Mode.exists_toDigit_iff a).2 ha
    obtain ⟨m2, rfl⟩ := (Mode.exists_toDigit_iff b).2 hb
    obtain rfl | rfl := hk
    · exact ⟨_, decodeHeader_two_params .jnz rfl m1 m2, nofun⟩
    · exact ⟨_, decodeHeader_two_params .jz rfl m1 m2, nofun⟩
  · obtain ⟨m1, rfl⟩ := (Mode.exists_toDigit_iff a).2 ha
    obtain rfl | rfl := hk
    · exact ⟨_, decodeHeader_one_param .out rfl m1, nofun⟩
    · exact ⟨_, decodeHeader_one_param .adj rfl m1, nofun⟩
  · exact ⟨⟨.inp, .position, .position, .position⟩, rfl, nofun⟩
  · exact ⟨⟨.inp, .relative, .position, .position⟩, rfl, nofun⟩
  · exact ⟨⟨.hlt, .position, .position, .position⟩, rfl, nofun⟩

theorem exists_decode_iff_isLegalWord (w p1 p2 p3 : Word) :
    (∃ i rest, decode [w, p1, p2, p3] = .ok (i, rest)) ↔ IsLegalWord w :=
  (exists_decode_four_iff w p1 p2 p3).trans
    ⟨fun ⟨_, hw, hd⟩ => isLegalWord_of_header hw hd, exists_header_of_isLegalWord⟩

/-- The 99 legal instruction words, 4·18 + 2·9 + 2·3 + 2 + 1 (30_encoding.md R69). -/
def legalWords : List Word :=
  ([1, 2, 7, 8].flatMap fun k => [0, 1, 2].flatMap fun m1 => [0, 1, 2].flatMap fun m2 => [0, 2].map fun m3 =>
    k + 100 * m1 + 1000 * m2 + 10000 * m3) ++
  (([5, 6].flatMap fun k => [0, 1, 2].flatMap fun m1 => [0, 1, 2].map fun m2 => k + 100 * m1 + 1000 * m2) ++
  (([4, 9].flatMap fun k => [0, 1, 2].map fun m1 => k + 100 * m1) ++ [3, 203, 99]))

theorem mem_legalWords (w : Word) : w ∈ legalWords ↔ IsLegalWord w := by
  simp only [legalWords, IsLegalWord, List.mem_append, List.mem_flatMap, List.mem_map, List.mem_cons, List.not_mem_nil,
    or_false, exists_and_left, eq_comm (b := w)]

/-- Settles O14: a word decodes exactly when its header's destination is not immediate, and those headers' words are
R69's list. -/
theorem legalInstructionWords : Obligations.LegalInstructionWords :=
  ⟨exists_decode_iff_isLegalWord, legalWords, by decide, by decide, fun w =>
    (mem_legalWords w).trans (exists_decode_iff_isLegalWord w 0 0 0).symm⟩

/-- Settles O11: the rule's words are fixed, and the decode procedure looks at no parameter's value, so each example is
the procedure carried out. -/
theorem decodingExamples : Obligations.DecodingExamples := fun _ _ _ =>
  ⟨rfl, rfl, rfl, rfl, rfl, rfl, rfl, rfl, rfl, rfl, rfl, rfl, rfl⟩

end Sys2Proof

namespace Sys2Proof.Machine

/-! ## The step takes the decoder's rejection (30_encoding.md R62 to R67) -/

/-- A check that fails in the decode procedure is the fault of the step (60_exceptions.md R87). -/
theorem step_of_fetchInstr_error {s : State} {r : Raised} (hs : s.status.terminal = false)
    (h : s.fetchInstr = .error r) :
    step s = .next { s with status := .faulted, fault := some ⟨r.cause, s.pc, r.info⟩ } := by
  rw [step_eq_settled s hs, exec1, State.fetchInstr_setStatus, h]
  rfl

theorem State.fetchInstr_of_header_error {s : State} {w : Word} {r : Reject} (hw : s.fetch s.pc = .ok w)
    (h : decodeHeader w = .error r) : s.fetchInstr = .error ⟨causeOf r, w⟩ := by
  simp [State.fetchInstr, hw, h]

/-- A parameter is fetched or not looked at. -/
theorem State.exists_fetchParam {s : State} {n i : Nat} (h : i ≤ n → ∃ p, s.fetch (s.pc + i) = .ok p) :
    ∃ p, s.fetchParam n i = .ok p := by
  unfold State.fetchParam
  split
  · exact h ‹_›
  · exact ⟨0, rfl⟩

/-- An immediate destination is raised once the parameter words are fetched, and before any operand is read
(30_encoding.md R67). -/
theorem State.fetchInstr_immediateDestination {s : State} {w : Word} {h : Header} (hw : s.fetch s.pc = .ok w)
    (hh : decodeHeader w = .ok h) (hd : h.destMode = some .immediate)
    (hp : ∀ k, 1 ≤ k → k ≤ h.op.nparams → ∃ p, s.fetch (s.pc + k) = .ok p) :
    s.fetchInstr = .error ⟨.immediateDestination, w⟩ := by
  obtain ⟨p1, h1⟩ := State.exists_fetchParam (hp 1 (by decide))
  obtain ⟨p2, h2⟩ := State.exists_fetchParam (hp 2 (by decide))
  obtain ⟨p3, h3⟩ := State.exists_fetchParam (hp 3 (by decide))
  simp [State.fetchInstr, hw, hh, h1, h2, h3, Header.assemble_immediateDestination hd, causeOf]

/-- Settles O16: the decoder rejects the word, and the step takes the rejection. -/
theorem unknownOpcodesFault : Obligations.UnknownOpcodesFault := fun _ _ hs hw h =>
  step_of_fetchInstr_error hs (State.fetchInstr_of_header_error hw (decodeHeader_unknownOpcode h))

/-- Settles O17: the digit of parameter `k` refuses its mode field, so the decoder rejects the word, and the step takes
the rejection. -/
theorem illegalModesFault : Obligations.IllegalModesFault := by
  intro s w op hs hw hnonneg hop h
  refine step_of_fetchInstr_error hs
    (State.fetchInstr_of_header_error hw (decodeHeader_illegalMode hnonneg hop (h.imp_right ?_)))
  rintro ⟨k, hk1, hk3, hdigit⟩
  exact ⟨k, hk1, hk3, modeField_eq_none (by simpa using hdigit)⟩

/-- Settles O18: the word has a header whose destination is immediate, and its parameter words can be fetched. -/
theorem immediateDestinationsFault : Obligations.ImmediateDestinationsFault := by
  intro s w hs hw h
  refine step_of_fetchInstr_error (r := ⟨.immediateDestination, w⟩) hs ?_
  obtain ⟨k, a, b, hk, ha, hb, rfl, hfetch⟩ | ⟨rfl, hfetch⟩ := h
  · obtain ⟨p1, p2, p3, h1, h2, h3⟩ := hfetch
    obtain ⟨h, hh, hn, hd⟩ := exists_header_three_params hk ha hb .immediate
    refine State.fetchInstr_immediateDestination hw hh hd fun j hj1 hjn => ?_
    obtain rfl | rfl | rfl : j = 1 ∨ j = 2 ∨ j = 3 := by omega
    exacts [⟨p1, h1⟩, ⟨p2, h2⟩, ⟨p3, h3⟩]
  · have hh : decodeHeader 103 = .ok ⟨.inp, .immediate, .position, .position⟩ := rfl
    refine State.fetchInstr_immediateDestination hw hh rfl fun j hj1 hjn => ?_
    obtain rfl : j = 1 := Nat.le_antisymm hjn hj1
    exact hfetch

end Sys2Proof.Machine
end

section
/-! SUPPORT. The exceptions family (60_exceptions.md): what a fault leaves (R87), the run operations that change nothing
(R96), and the host's push and pop (R109, R111). -/

namespace Sys2Proof.Machine

/-! ## What a fault leaves (60_exceptions.md R87) -/

/-- Settle ends in Faulted exactly by taking a fault (60_exceptions.md R95). -/
theorem State.settled_status_eq_faulted_iff (s : State) (o : InstrOutcome) :
    (s.settled o).status = .faulted ↔ ∃ r, o = .fault r := by
  cases o <;> simp [State.settled]

/-- Settles O23: a step ends in Faulted only by taking a fault, and the state that takes it is the one before the
instruction. -/
theorem faultsArePrecise : Obligations.FaultsArePrecise := by
  intro s t hs hstep hfaulted
  rw [step_eq_settled s hs] at hstep
  obtain rfl := Host.Outcome.next.inj hstep
  obtain ⟨r, hr⟩ := (State.settled_status_eq_faulted_iff ..).1 hfaulted
  rw [hr]
  exact ⟨r.cause, r.info, rfl⟩

/-! ## Run operations that change nothing (60_exceptions.md R96) -/

theorem run_of_terminal {s : State} (op : RunOp) (fuel : Nat) (h : s.status.terminal = true) :
    run op fuel s = .returned s :=
  (run_eq_returned ..).2 (.inl ⟨h, rfl⟩)

/-- Blocking after the status was set to Running puts PendingInput back, so nothing has changed. -/
theorem State.settled_blocked_of_pendingInput {s : State} (h : s.status = .pendingInput) :
    (s.setStatus .running).settled .blocked = s := by
  cases s
  cases h
  rfl

/-- A Machine blocked at an IN blocks again while its input Device is empty (41_io.md R78). -/
theorem State.BlockedAtIn.exec1_eq_blocked {s : State} (hblocked : s.BlockedAtIn) (hs : s.status = .pendingInput)
    (hin : s.input = []) : exec1 (s.setStatus .running) = .blocked := by
  obtain ⟨d, a, hfetch, hd⟩ := hblocked hs
  rw [exec1_of_fetch _ (.inp d) (by rw [State.fetchInstr_setStatus, hfetch])]
  exact (inRule_eq_blocked ..).2 ⟨⟨a, (State.destAddress_congr s _ d rfl rfl).trans hd⟩, hin⟩

/-- An instruction that blocks ends every run operation. -/
theorem runLoop_of_blocked {s : State} (op : RunOp) (n : Nat) (h : exec1 s = .blocked) :
    runLoop op (n + 1) s = .returned (s.settled .blocked) :=
  (runLoop_succ_eq_returned ..).2 (.inl ⟨by simp [h], by rw [h]⟩)

/-- Settles O22: nothing runs in a terminal status, and a Machine blocked at an IN blocks again at its first
instruction. -/
theorem runsThatChangeNothing : Obligations.RunsThatChangeNothing := by
  refine ⟨fun op fuel s hs => ?_, fun op fuel s hblocked hs hin => ?_⟩
  · have hterm : s.status.terminal = true := by rcases hs with h | h <;> rw [h] <;> rfl
    exact ⟨run_of_terminal op fuel hterm, step_of_terminal s hterm⟩
  · have hterm : s.status.terminal = false := by rw [hs]; rfl
    have hexec := hblocked.exec1_eq_blocked hs hin
    have hsame := State.settled_blocked_of_pendingInput hs
    constructor
    · exact (run_eq_returned ..).2 (.inr ⟨hterm, by rw [runLoop_of_blocked op fuel hexec, hsame]⟩)
    · rw [step_eq_settled s hterm, hexec, hsame]

/-! ## The host's push and pop (60_exceptions.md R109, R111) -/

theorem State.pushInput_of_inRange {s : State} {v : Int} (h : s.config.inRange v) :
    s.pushInput v = .ok { s with input := s.input ++ [v] } :=
  if_pos h

theorem State.pushInput_of_not_inRange {s : State} {v : Int} (h : ¬ s.config.inRange v) :
    s.pushInput v = .error (.notAWord v) :=
  if_neg h

/-- Settles O52: the command's state is the pushed one, or the state before it when the push is refused. -/
theorem pushInputOperation : Obligations.PushInputOperation := by
  refine fun s v => ⟨fun h => ?_, fun h => ?_⟩
  · have hpush := State.pushInput_of_inRange h
    exact ⟨hpush, by rw [State.Does, hpush]; rfl⟩
  · have hpush := State.pushInput_of_not_inRange h
    exact ⟨hpush, fun t ht => by rwa [State.Does, hpush] at ht⟩

theorem State.popOutput_of_cons {s : State} {v : Word} {rest : List Word} (h : s.output = v :: rest) :
    s.popOutput = (some v, { s with output := rest }) := by
  simp [State.popOutput, h]

theorem State.popOutput_of_nil {s : State} (h : s.output = []) :
    s.popOutput = (none, s.takeFault ⟨.outputEmpty, 0⟩) := by
  simp [State.popOutput, h]

/-- Settles O54: one lemma for each of the two forms of the output Device. -/
theorem popOutputOperation : Obligations.PopOutputOperation :=
  fun _ => ⟨fun _ _ => State.popOutput_of_cons, State.popOutput_of_nil⟩

end Sys2Proof.Machine
end

section
/-! SUPPORT. Construct and Reload (70_reset_and_hazards.md R126, R127), and the round trip of the program loader
(R130). -/

namespace Sys2Proof.Machine

/-! ## What a Program is loaded into (70_reset_and_hazards.md R126, R127) -/

/-- The Machine that Construct and Reload leave, with the given words in its Devices. -/
def State.loaded (c : Config) (p : List Word) (input output : List Word) : State where
  config := c
  mem := Memory.load 0 p
  imageLen := p.length
  pc := 0
  base := 0
  status := .paused
  fault := none
  input := input
  output := output

/-- A loaded Machine's memory is the Program, and 0 beyond it. -/
theorem State.memRead_loaded (c : Config) (p input output : List Word) (a : Nat) :
    (State.loaded c p input output).memRead a = p.getD a 0 := by
  simp [State.loaded, State.memRead, Memory.read_load]

/-- A Program is accepted exactly when its entries are Words and it fits the address space. -/
theorem checkProgram_eq_ok (c : Config) (p : List Int) :
    checkProgram c p = .ok () ↔ (∀ v ∈ p, c.inRange v) ∧ p.length ≤ c.addrMax + 1 := by
  unfold checkProgram
  cases hfind : p.find? (fun v => decide (¬ c.inRange v)) with
  | some v =>
    have hv : ¬ c.inRange v := of_decide_eq_true (List.find?_some (p := fun v => decide (¬ c.inRange v)) hfind)
    exact iff_of_false nofun fun h => hv (h.1 v (List.mem_of_find?_eq_some hfind))
  | none =>
    have hall : ∀ v ∈ p, c.inRange v := by simpa using hfind
    rw [and_iff_right hall]
    simp

theorem State.construct_of_legal {c : Config} {p : List Int} (hc : c.legal = true) (hp : checkProgram c p = .ok ()) :
    State.construct c p = .ok (State.loaded c p [] []) := by
  simp only [State.construct, hc, hp]
  rfl

/-- Construct answers a Machine only for a Program that was accepted. -/
theorem State.checkProgram_of_construct {c : Config} {p : List Int} {s : State} (h : State.construct c p = .ok s) :
    checkProgram c p = .ok () := by
  cases hp : checkProgram c p with
  | ok _ => rfl
  | error e => by_cases hc : c.legal = true <;> simp [State.construct, hc, hp, bind, Except.bind] at h

/-- Settles O1: an accepted Program is in memory, and a refused one gives no Machine. -/
theorem constructedMachineValues : Obligations.ConstructedMachineValues := by
  refine fun c p => ⟨fun hc hp hlen => ?_, fun v hv hbad s hs => ?_⟩
  · have hcheck := (checkProgram_eq_ok c p).2 ⟨hp, hlen⟩
    exact ⟨_, State.construct_of_legal hc hcheck, rfl, rfl, fun _ => State.memRead_loaded .., rfl, rfl, rfl, rfl,
      rfl, rfl⟩
  · exact hbad (((checkProgram_eq_ok c p).1 (State.checkProgram_of_construct hs)).1 v hv)

theorem State.reload_preserve {s : State} {p : List Int} (h : checkProgram s.config p = .ok ()) :
    s.reload p .preserve = .ok (State.loaded s.config p s.input s.output) := by
  simp only [State.reload, h]
  rfl

theorem State.reload_clear {s : State} {p : List Int} (h : checkProgram s.config p = .ok ()) :
    s.reload p .clear = .ok (State.loaded s.config p [] []) := by
  simp only [State.reload, h]
  rfl

/-- Settles O2: one loaded Machine for each value of `reload_ports`. -/
theorem reloadedMachineValues : Obligations.ReloadedMachineValues := by
  intro s p ports hp hlen
  have hcheck := (checkProgram_eq_ok s.config p).2 ⟨hp, hlen⟩
  cases ports with
  | preserve =>
    exact ⟨_, State.reload_preserve hcheck, rfl, rfl, fun _ => State.memRead_loaded .., rfl, rfl, rfl, rfl,
      fun _ => ⟨rfl, rfl⟩, nofun⟩
  | clear =>
    exact ⟨_, State.reload_clear hcheck, rfl, rfl, fun _ => State.memRead_loaded .., rfl, rfl, rfl, rfl,
      nofun, fun _ => ⟨rfl, rfl⟩⟩

/-! ## The digits of a number (70_reset_and_hazards.md R130) -/

theorem toNat_decimalDigit : ∀ d < 10, (Char.ofNat (48 + d)).toNat = 48 + d := by decide

theorem isDecimal_decimalDigit {d : Nat} (h : d < 10) : isDecimal (Char.ofNat (48 + d)) = true := by
  simp only [isDecimal, toNat_decimalDigit d h, decide_eq_true_eq]
  omega

theorem decimalValue_concat (ds : List Char) (c : Char) :
    decimalValue (ds ++ [c]) = 10 * decimalValue ds + (c.toNat - 48) := by
  simp [decimalValue]

theorem digitsWithin_ne_nil (fuel n : Nat) : digitsWithin (fuel + 1) n ≠ [] := by
  unfold digitsWithin
  split <;> simp

theorem isDecimal_of_mem_digitsWithin {fuel n : Nat} {c : Char} (h : c ∈ digitsWithin fuel n) : isDecimal c = true := by
  induction fuel generalizing n with
  | zero => simp [digitsWithin] at h
  | succ fuel ih =>
    unfold digitsWithin at h
    split at h
    · obtain rfl : c = Char.ofNat (48 + n) := by simpa using h
      exact isDecimal_decimalDigit ‹_›
    · obtain h | rfl : c ∈ digitsWithin fuel (n / 10) ∨ c = Char.ofNat (48 + n % 10) := by simpa using h
      · exact ih h
      · exact isDecimal_decimalDigit (Nat.mod_lt _ (by decide))

/-- The digits of a number stand for it, given fuel above the number. -/
theorem decimalValue_digitsWithin {fuel n : Nat} (h : n < fuel) : decimalValue (digitsWithin fuel n) = n := by
  induction fuel generalizing n with
  | zero => omega
  | succ fuel ih =>
    unfold digitsWithin
    split
    · simp [decimalValue, toNat_decimalDigit n ‹_›]
    · have hlast := toNat_decimalDigit (n % 10) (Nat.mod_lt _ (by decide))
      rw [decimalValue_concat, ih (by omega), hlast]
      omega

theorem decimalText_ne_nil (v : Word) : decimalText v ≠ [] := by
  unfold decimalText
  split
  · simp
  · exact digitsWithin_ne_nil _ _

/-! ## Reading a Word back (70_reset_and_hazards.md R129, R130) -/

section
variable {ds rest : List Char} (hne : ds ≠ []) (hds : ∀ c ∈ ds, isDecimal c = true)
  (hrest : ∀ c ∈ rest.head?, isDecimal c = false)
include hds hrest

/-- A run of digits ends at the first character that is none. -/
theorem takeWhile_isDecimal_append : (ds ++ rest).takeWhile isDecimal = ds := by
  have hstop : rest.takeWhile isDecimal = [] := by cases rest <;> simp_all
  rw [List.takeWhile_append_of_pos hds, hstop, List.append_nil]

theorem dropWhile_isDecimal_append : (ds ++ rest).dropWhile isDecimal = rest := by
  have hstop : rest.dropWhile isDecimal = rest := by cases rest <;> simp_all
  rw [List.dropWhile_append_of_pos hds, hstop]

include hne

theorem nextInteger_of_negative : nextInteger ('-' :: (ds ++ rest)) = some (-(decimalValue ds : Int), rest) := by
  simp [nextInteger, takeWhile_isDecimal_append hds hrest, dropWhile_isDecimal_append hds hrest, hne]

theorem nextInteger_of_digits : nextInteger (ds ++ rest) = some ((decimalValue ds : Int), rest) := by
  have hsign : (ds ++ rest).head? ≠ some '-' := by
    obtain ⟨d, ds', rfl⟩ := List.exists_cons_of_ne_nil hne
    have hd : isDecimal d = true := hds d (by simp)
    rintro ⟨⟩
    exact absurd hd (by decide)
  simp only [nextInteger, hsign, if_false, takeWhile_isDecimal_append hds hrest,
    dropWhile_isDecimal_append hds hrest, hne]

end

/-- The integer in front of a Word's text is that Word, whatever follows that is no digit. -/
theorem nextInteger_decimalText (v : Word) {rest : List Char} (hrest : ∀ c ∈ rest.head?, isDecimal c = false) :
    nextInteger (decimalText v ++ rest) = some (v, rest) := by
  have hne := digitsWithin_ne_nil v.natAbs v.natAbs
  have hds : ∀ c ∈ digitsWithin (v.natAbs + 1) v.natAbs, isDecimal c = true := fun _ => isDecimal_of_mem_digitsWithin
  have hval : decimalValue (digitsWithin (v.natAbs + 1) v.natAbs) = v.natAbs := decimalValue_digitsWithin (by omega)
  unfold decimalText
  split <;> rename_i hv
  · rw [List.cons_append, nextInteger_of_negative hne hds hrest, hval,
      Int.ofNat_natAbs_of_nonpos (Int.le_of_lt hv), Int.neg_neg]
  · rw [nextInteger_of_digits hne hds hrest, hval, Int.natAbs_of_nonneg (Int.not_lt.1 hv)]

/-! ## The loader's loop on a Program's text -/

section
variable {c : Config} {v : Word} (hv : c.inRange v) (fuel i : Nat)
include hv

/-- A Word before a comma comes first, and the loop goes on after the comma. -/
theorem loadFrom_decimalText_comma (more : List Char) :
    ∃ j, loadFrom c (fuel + 1) i (decimalText v ++ ',' :: more) = (loadFrom c fuel j more).map (v :: ·) := by
  have hnext := nextInteger_decimalText v (rest := ',' :: more) (by simp; decide)
  simp only [loadFrom, hnext, if_pos hv]
  exact ⟨_, rfl⟩

/-- A Word before the end of the text, or before anything but a digit or a comma, is the last one. -/
theorem loadFrom_decimalText_end {rest : List Char} (hrest : ∀ d ∈ rest.head?, isDecimal d = false ∧ d ≠ ',') :
    loadFrom c (fuel + 1) i (decimalText v ++ rest) = .ok [v] := by
  have hnext := nextInteger_decimalText v fun d hd => (hrest d hd).1
  simp only [loadFrom, hnext, if_pos hv]
  split
  · exact absurd rfl (hrest ',' rfl).2
  · rfl

end

/-- With fuel for each Word, the loop reads a Program's text back up to the text's end or its final newline. -/
theorem loadFrom_toText {c : Config} {p : List Word} {ending : List Char} (hp : ∀ v ∈ p, c.inRange v)
    (hending : ending = [] ∨ ending = ['\n']) {fuel : Nat} (hfuel : p.length < fuel) (i : Nat) :
    loadFrom c fuel i (toText p ++ ending) = .ok p := by
  obtain ⟨n, rfl⟩ : ∃ n, fuel = n + 1 := ⟨fuel - 1, by omega⟩
  induction p using toText.induct generalizing n i with
  | case1 => rcases hending with rfl | rfl <;> rfl
  | case2 v =>
    refine loadFrom_decimalText_end (hp v (by simp)) n i ?_
    rcases hending with rfl | rfl <;> simp [isDecimal]
  | case3 v w ws ih =>
    obtain ⟨m, rfl⟩ : ∃ m, n = m + 1 := ⟨n - 1, by simp at hfuel; omega⟩
    obtain ⟨j, hj⟩ := loadFrom_decimalText_comma (hp v (by simp)) (m + 1) i (toText (w :: ws) ++ ending)
    have hrest := ih (fun u hu => hp u (List.mem_cons_of_mem _ hu)) j m (by simpa using hfuel)
    rw [toText, List.append_assoc, List.cons_append, hj, hrest]
    rfl

/-- Each Word of a Program gives its text at least one character. -/
theorem length_le_length_toText (p : List Word) : p.length ≤ (toText p).length := by
  induction p using toText.induct with
  | case1 => simp
  | case2 v => exact List.length_pos_of_ne_nil (decimalText_ne_nil v)
  | case3 v w ws ih =>
    simp only [toText, List.length_append, List.length_cons] at ih ⊢
    omega

/-- Settles O56: the text is at least as long as the Program, so the loader has fuel for each Word. -/
theorem loadOfToText : Obligations.LoadOfToText := by
  intro c p hp
  have hlen := length_le_length_toText p
  constructor
  · simpa [load] using loadFrom_toText hp (.inl rfl) (Nat.lt_succ_of_le hlen) 0
  · exact loadFrom_toText hp (.inr rfl) (by simp; omega) 0

end Sys2Proof.Machine
end

section
/-! SUPPORT. The round trip of the encoding (30_encoding.md R54, R57 to R59): the header and the parameters of an
instruction, what the decode procedure makes of them, and the order of the fetches before it. -/

namespace Sys2Proof

/-! ## The header of an instruction -/

/-- What the instruction word of an instruction says; an absent parameter's mode is `position` (30_encoding.md R54). -/
def Instr.header : Instr → Header
  | .add a b d => ⟨.add, a.mode, b.mode, d.mode⟩
  | .mul a b d => ⟨.mul, a.mode, b.mode, d.mode⟩
  | .inp d => ⟨.inp, d.mode, .position, .position⟩
  | .out a => ⟨.out, a.mode, .position, .position⟩
  | .jnz a t => ⟨.jnz, a.mode, t.mode, .position⟩
  | .jz a t => ⟨.jz, a.mode, t.mode, .position⟩
  | .lt a b d => ⟨.lt, a.mode, b.mode, d.mode⟩
  | .eq a b d => ⟨.eq, a.mode, b.mode, d.mode⟩
  | .adj a => ⟨.adj, a.mode, .position, .position⟩
  | .hlt => ⟨.hlt, .position, .position, .position⟩

/-- An absent parameter's mode is `position` (30_encoding.md R65). -/
def Header.AbsentArePosition (h : Header) : Prop :=
  (h.op.nparams < 1 → h.m1 = .position) ∧ (h.op.nparams < 2 → h.m2 = .position) ∧
    (h.op.nparams < 3 → h.m3 = .position)

theorem Instr.word_eq_headerWord (i : Instr) :
    i.word = headerWord i.header.op.number i.header.m1.toDigit i.header.m2.toDigit i.header.m3.toDigit := by
  cases i <;> rfl

theorem Instr.absentArePosition_header (i : Instr) : i.header.AbsentArePosition := by
  cases i <;> simp [Header.AbsentArePosition, Instr.header, Opcode.nparams]

/-- The instruction word's half of the decode procedure gives the header back. -/
theorem decodeHeader_word (i : Instr) : decodeHeader i.word = .ok i.header :=
  (decodeHeader_eq_ok ..).2 ⟨i.word_eq_headerWord, i.absentArePosition_header⟩

theorem Instr.length_params (i : Instr) : i.params.length = i.header.op.nparams := by
  cases i <;> rfl

theorem Instr.width_eq (i : Instr) : i.width = i.header.op.nparams + 1 := by
  cases i <;> rfl

/-! ## The parameters of an instruction -/

/-- Line 9 of R59 gives an instruction back from its header and its parameters, whatever stands for absent ones. -/
theorem Instr.assemble_header (i : Instr) :
    i.header.assemble (i.params.getD 0 0) (i.params.getD 1 0) (i.params.getD 2 0) = .ok i := by
  cases i <;> simp [Instr.header, Header.assemble, Instr.params, Except.map]

theorem Instr.takeParams_params (i : Instr) (rest : List Word) :
    takeParams i.header.op.nparams (i.params ++ rest) =
      some (i.params.getD 0 0, i.params.getD 1 0, i.params.getD 2 0, rest) := by
  cases i <;> rfl

/-- The parameter words that are taken are those in front of the rest. -/
theorem eq_append_of_takeParams {n : Nat} {ws rest : List Word} {p1 p2 p3 : Word}
    (h : takeParams n ws = some (p1, p2, p3, rest)) : ws = [p1, p2, p3].take n ++ rest := by
  unfold takeParams at h
  split at h <;> simp_all

theorem Destination.map_ofMode_eq_ok {m : Mode} {p : Word} {f : Destination → Instr} {i : Instr}
    (h : (Destination.ofMode m p).map f = .ok i) : ∃ d, i = f d ∧ d.mode = m ∧ d.param = p := by
  cases hd : Destination.ofMode m p with
  | error r => simp [hd, Except.map] at h
  | ok d => exact ⟨d, by simpa [hd, Except.map, eq_comm] using h, (Destination.ofMode_eq_ok ..).1 hd⟩

/-- Line 9 of R59 makes an instruction of exactly the parameters its opcode has. -/
theorem Header.params_of_assemble {h : Header} {p1 p2 p3 : Word} {i : Instr} (hi : h.assemble p1 p2 p3 = .ok i) :
    i.params = [p1, p2, p3].take h.op.nparams := by
  obtain ⟨op, m1, m2, m3⟩ := h
  cases op
  case add | mul | lt | eq | inp =>
    obtain ⟨d, rfl, -, rfl⟩ := Destination.map_ofMode_eq_ok hi
    simp [Instr.params, Opcode.nparams]
  case out | jnz | jz | adj | hlt =>
    obtain rfl := Except.ok.inj hi
    simp [Instr.params, Opcode.nparams]

/-- Line 9 of R59 keeps the header, where its absent parameters are as the decoder leaves them. -/
theorem Header.header_of_assemble {h : Header} {p1 p2 p3 : Word} {i : Instr} (hi : h.assemble p1 p2 p3 = .ok i)
    (habsent : h.AbsentArePosition) : i.header = h := by
  obtain ⟨op, m1, m2, m3⟩ := h
  simp only [Header.AbsentArePosition] at habsent
  cases op
  case add | mul | lt | eq =>
    obtain ⟨d, rfl, rfl, -⟩ := Destination.map_ofMode_eq_ok hi
    simp [Instr.header]
  case inp =>
    obtain ⟨d, rfl, rfl, -⟩ := Destination.map_ofMode_eq_ok hi
    simpa [Instr.header, Opcode.nparams, eq_comm] using habsent
  case out | jnz | jz | adj | hlt =>
    obtain rfl := Except.ok.inj hi
    simpa [Instr.header, Opcode.nparams, eq_comm] using habsent

/-! ## Decoding and encoding -/

/-- Settles O12: the header and the parameters of the instruction come back, and line 9 of R59 joins them again. -/
theorem decodeOfEncode : Obligations.DecodeOfEncode := by
  intro i rest
  simp only [encode, List.cons_append, decode, decodeHeader_word, Instr.takeParams_params, Instr.assemble_header]

/-- Settles O13: the header fixes the instruction word and the opcode's parameters are the words taken. -/
theorem encodeOfDecode : Obligations.EncodeOfDecode := by
  intro ws rest i h
  unfold decode at h
  split at h
  · cases h
  next w ws =>
    split at h
    · cases h
    next hd hw =>
      split at h
      · cases h
      next p1 p2 p3 rest' htake =>
        split at h
        · cases h
        next j hj =>
          cases h
          obtain ⟨hword, habsent⟩ := (decodeHeader_eq_ok ..).1 hw
          rw [encode, i.word_eq_headerWord, Header.header_of_assemble hj habsent, ← hword,
            Header.params_of_assemble hj, eq_append_of_takeParams htake, List.cons_append]

theorem Opcode.number_lt_hundred (op : Opcode) : op.number < 100 := by
  cases op <;> decide

/-- The two low digits of a built instruction word are its opcode (30_encoding.md R54). -/
theorem headerWord_emod_hundred {k : Nat} (a b c : Nat) (hk : k < 100) : (headerWord k a b c : Int) % 100 = k := by
  show ((k + 100 * a + 1000 * b + 10000 * c : Nat) : Int) % 100 = k
  omega

/-- Settles O15: the words are the instruction's encoding, so both the two low digits and the width are its opcode's. -/
theorem widthFromOpcodeAlone : Obligations.WidthFromOpcodeAlone := by
  intro w ws rest i h
  have henc := encodeOfDecode _ _ _ h
  have hlen : (w :: ws).length = i.width + rest.length := by
    rw [henc, encode, List.length_append, List.length_cons, i.length_params, i.width_eq]
  obtain rfl : w = i.word := (List.cons.inj henc).1
  have hmod : i.word % 100 = i.header.op.number := by
    rw [i.word_eq_headerWord]
    exact headerWord_emod_hundred _ _ _ (Opcode.number_lt_hundred _)
  refine ⟨hlen, ?_⟩
  rw [hmod, i.width_eq]
  cases i.header.op <;> simp [Opcode.number, Opcode.nparams]

end Sys2Proof

namespace Sys2Proof.Machine

/-! ## The order of the fetches (30_encoding.md R59, 60_exceptions.md R89) -/

theorem State.fetchParam_of_le {n k : Nat} (s : State) (h : k ≤ n) : s.fetchParam n k = s.fetch (s.pc + k) :=
  if_pos h

/-- The first parameter word that cannot be fetched is the fault of the decode procedure. -/
theorem State.fetchInstr_of_param_error {s : State} {w : Word} {h : Header} {k : Nat} {r : Raised}
    (hw : s.fetch s.pc = .ok w) (hh : decodeHeader w = .ok h) (hk1 : 1 ≤ k) (hkn : k ≤ h.op.nparams)
    (hbefore : ∀ j, 1 ≤ j → j < k → ∃ p, s.fetch (s.pc + j) = .ok p) (hr : s.fetch (s.pc + k) = .error r) :
    s.fetchInstr = .error r := by
  have hparam : ∀ j, 1 ≤ j → j < k → ∃ p, s.fetchParam h.op.nparams j = .ok p := fun j hj1 hjk =>
    State.exists_fetchParam fun _ => hbefore j hj1 hjk
  rw [← s.fetchParam_of_le hkn] at hr
  have hk3 : k ≤ 3 := hkn.trans (by cases h.op <;> decide)
  obtain rfl | rfl | rfl : k = 1 ∨ k = 2 ∨ k = 3 := by omega
  · simp [State.fetchInstr, hw, hh, hr]
  · obtain ⟨p1, h1⟩ := hparam 1 (by decide) (by decide)
    simp [State.fetchInstr, hw, hh, h1, hr]
  · obtain ⟨p1, h1⟩ := hparam 1 (by decide) (by decide)
    obtain ⟨p2, h2⟩ := hparam 2 (by decide) (by decide)
    simp [State.fetchInstr, hw, hh, h1, h2, hr]

/-- Settles O19: a fetch that fails ends the decode procedure, and the step takes its fault. -/
theorem fetchFaultOrder : Obligations.FetchFaultOrder := by
  refine fun s r hs => ⟨fun hr => ?_, fun w h k hw hh hk1 hkn hbefore hr => ?_⟩
  · exact step_of_fetchInstr_error hs (by simp [State.fetchInstr, hr])
  · exact step_of_fetchInstr_error hs (State.fetchInstr_of_param_error hw hh hk1 hkn hbefore hr)

/-- An instruction is decoded from a stream that holds its Words at pc (30_encoding.md R59). -/
theorem State.fetchInstr_of_encode {s : State} {i : Instr}
    (h : ∀ k w, (encode i)[k]? = some w → s.fetch (s.pc + k) = .ok w) : s.fetchInstr = .ok i := by
  have hparam : ∀ k, s.fetchParam i.header.op.nparams (k + 1) = .ok (i.params.getD k 0) := by
    intro k
    rw [← i.length_params, State.fetchParam]
    split
    next hk => exact h (k + 1) _ (by simp [encode, List.getElem?_eq_getElem (Nat.lt_of_succ_le hk)])
    next hk => rw [List.getD_eq_default _ _ (by omega)]
  simp [State.fetchInstr, show s.fetch s.pc = .ok i.word from h 0 _ rfl, decodeHeader_word, hparam 0, hparam 1,
    hparam 2, Instr.assemble_header, -List.getD_eq_getElem?_getD]

/-- Settles O20: the decode procedure reads the instruction, and the step executes it. -/
theorem stepRunsTheDecodedInstruction : Obligations.StepRunsTheDecodedInstruction := by
  intro s i hs h
  simp only [step, hs, Bool.false_eq_true, if_false, State.fetchInstr_setStatus, State.fetchInstr_of_encode h]
  rfl

/-- Settles O21: nothing happens in a terminal status, and otherwise the settled outcome of one instruction is next. -/
theorem everyStepAnswersNext : Obligations.EveryStepAnswersNext := by
  intro s
  cases hs : s.status.terminal with
  | true => exact ⟨s, step_of_terminal s hs⟩
  | false => exact ⟨_, step_eq_settled s hs⟩

end Sys2Proof.Machine
end

section
/-! SUPPORT. What one instruction can do, said once: how it completes, blocks, halts or faults, and what each of these
leaves unchanged (10_state.md R18, R22, R29; 60_exceptions.md R95). -/

namespace Sys2Proof

/-- The destination parameter of an instruction that stores; `none` for one that stores nothing (30_encoding.md R57). -/
def Instr.dest : Instr → Option Destination
  | .add _ _ d | .mul _ _ d | .lt _ _ d | .eq _ _ d | .inp d => some d
  | .out _ | .jnz _ _ | .jz _ _ | .adj _ | .hlt => none

end Sys2Proof

namespace Sys2Proof.Machine

/-! ## No rule reads the status (10_state.md R25) -/

@[simp] theorem State.readOperand_setStatus (s : State) (x : Status) (o : Source) :
    (s.setStatus x).readOperand o = s.readOperand o :=
  State.readOperand_congr s _ o rfl rfl rfl

@[simp] theorem State.destAddress_setStatus (s : State) (x : Status) (d : Destination) :
    (s.setStatus x).destAddress d = s.destAddress d :=
  State.destAddress_congr s _ d rfl rfl

/-! ## How an instruction completes -/

/-- `s.Completes i k t`: the instruction `i`, executed in `s`, can complete in `t`, having done `k` at the Devices
(30_encoding.md R61). -/
inductive State.Completes (s : State) : Instr → DoneKind → State → Prop where
  /-- ADD, MUL, LT and EQ (40_alu.md R74 to R77). -/
  | store {i : Instr} {d : Destination} {x : Nat} {r : Word} (hdest : i.dest = some d) (hx : s.destAddress d = .ok x)
      (hr : s.config.legal = true → s.config.inRange r) (hpc : s.pc + 4 ≤ s.config.addrMax) :
      s.Completes i .other ((s.memWrite x r).setPc (s.pc + 4))
  /-- IN (41_io.md R78). -/
  | input {d : Destination} {x : Nat} {v : Word} {rest : List Word} (hx : s.destAddress d = .ok x)
      (hinput : s.input = v :: rest) (hpc : s.pc + 2 ≤ s.config.addrMax) :
      s.Completes (.inp d) .input (({ s with input := rest }.memWrite x v).setPc (s.pc + 2))
  /-- OUT (41_io.md R79). -/
  | output {a : Source} {v : Word} (hv : s.readOperand a = .ok v) (hpc : s.pc + 2 ≤ s.config.addrMax) :
      s.Completes (.out a) .output ((s.outPush v).setPc (s.pc + 2))
  /-- JNZ and JZ (42_control.md R81, R82): to the target, or on to an address. -/
  | jump {i : Instr} {a target : Source} {n : Nat} (hi : i = .jnz a target ∨ i = .jz a target)
      (hn : s.readOperand target = .ok (n : Int) ∨ n ≤ s.config.addrMax) : s.Completes i .other (s.setPc n)
  /-- ADJ (43_base.md R85). -/
  | adj {a : Source} {b : Word} (hb : s.config.inRange b) (hpc : s.pc + 2 ≤ s.config.addrMax) :
      s.Completes (.adj a) .other ((s.setBase b).setPc (s.pc + 2))

theorem completes_of_threeOperandRule {i : Instr} {f : Word → Word → Checked Word} {a b : Source} {d : Destination}
    {s t : State} {k : DoneKind} (hdest : i.dest = some d)
    (hf : s.config.legal = true → ∀ x y r, f x y = .ok r → s.config.inRange r)
    (h : threeOperandRule f a b d s = .done k t) : s.Completes i k t := by
  obtain ⟨rfl, _, _, _, _, -, -, hx, hr, hpc, rfl⟩ := (threeOperandRule_eq_done ..).1 h
  exact .store hdest hx (fun hlegal => hf hlegal _ _ _ hr) hpc

theorem completes_of_jumpRule {i : Instr} {taken : Word → Bool} {a target : Source} {s t : State} {k : DoneKind}
    (hi : i = .jnz a target ∨ i = .jz a target) (h : jumpRule taken a target s = .done k t) : s.Completes i k t := by
  obtain ⟨rfl, _, w, -, hw, ⟨-, hnonneg, rfl⟩ | ⟨-, hpc, rfl⟩⟩ := (jumpRule_eq_done ..).1 h
  · exact .jump hi (.inl (by rw [hw, Int.toNat_of_nonneg hnonneg]))
  · exact .jump hi (.inr hpc)

theorem checkWord_inRange {s : State} {r v : Int} (h : s.checkWord r = .ok v) : s.config.inRange v := by
  obtain ⟨hr, rfl⟩ := (State.checkWord_eq_ok ..).1 h
  exact hr

/-- A rule that ends in `done` completed its instruction. -/
theorem completes_of_ruleOf {i : Instr} {s t : State} {k : DoneKind} (h : ruleOf i s = .done k t) :
    s.Completes i k t := by
  cases i with
  | add a b d => exact completes_of_threeOperandRule rfl (fun _ _ _ _ => checkWord_inRange) h
  | mul a b d => exact completes_of_threeOperandRule rfl (fun _ _ _ _ => checkWord_inRange) h
  | lt a b d =>
    exact completes_of_threeOperandRule rfl (fun hl _ _ _ hr => Except.ok.inj hr ▸ comparisonWord_inRange _ hl _) h
  | eq a b d =>
    exact completes_of_threeOperandRule rfl (fun hl _ _ _ hr => Except.ok.inj hr ▸ comparisonWord_inRange _ hl _) h
  | inp d =>
    obtain ⟨rfl, _, _, _, hx, hinput, hpc, rfl⟩ := (inRule_eq_done ..).1 h
    exact .input hx hinput hpc
  | out a =>
    obtain ⟨rfl, _, hv, hpc, rfl⟩ := (outRule_eq_done ..).1 h
    exact .output hv hpc
  | jnz a u => exact completes_of_jumpRule (.inl rfl) h
  | jz a u => exact completes_of_jumpRule (.inr rfl) h
  | adj a =>
    obtain ⟨rfl, _, -, hb, hpc, rfl⟩ := (adjRule_eq_done ..).1 h
    exact .adj hb hpc
  | hlt => exact (hltRule_not_done s t k h).elim

section
variable {s t : State} {i : Instr} {k : DoneKind} (h : s.Completes i k t)
include h

/-! ## What a completed instruction leaves unchanged -/

theorem State.Completes.config_eq : t.config = s.config := by cases h <;> rfl

theorem State.Completes.status_eq : t.status = s.status := by cases h <;> rfl

/-- Only ADJ writes the base (10_state.md R22). -/
theorem State.Completes.base_eq (hi : ∀ a, i ≠ .adj a) : t.base = s.base := by
  cases h with
  | adj => exact absurd rfl (hi _)
  | _ => rfl

/-- Only IN and OUT reach the Devices, as the outcome's kind says (10_state.md R29, 30_encoding.md R61). -/
theorem State.Completes.devices :
    (k = .other ∧ t.input = s.input ∧ t.output = s.output) ∨
      (k = .input ∧ (∃ d, i = .inp d) ∧ (∃ v, s.input = v :: t.input) ∧ t.output = s.output) ∨
      (k = .output ∧ t.input = s.input ∧
        ∃ a v, i = .out a ∧ s.readOperand a = .ok v ∧ t.output = s.output ++ [v]) := by
  cases h with
  | store | jump | adj => exact .inl ⟨rfl, rfl, rfl⟩
  | input _ hinput => exact .inr (.inl ⟨rfl, ⟨_, rfl⟩, ⟨_, hinput⟩, rfl⟩)
  | output hv => exact .inr (.inr ⟨rfl, rfl, _, _, rfl, hv, rfl⟩)

end

/-! ## The four outcomes of one instruction -/

/-- An instruction completes, blocks at an IN, halts or faults, and the status is settled (60_exceptions.md R95). -/
theorem exec_cases {i : Instr} {s t : State} (h : exec i s = .next t) :
    (∃ k u, s.Completes i k u ∧ t = u.setStatus .paused) ∨
      (∃ d, i = .inp d ∧ t = s.setStatus .pendingInput) ∨
      (i = .hlt ∧ t = (s.setPc (s.pc + 1)).setStatus .halted) ∨ ∃ r, t = s.takeFault r := by
  rw [exec_eq_settled] at h
  obtain rfl := Host.Outcome.next.inj h
  cases ho : ruleOf i s with
  | done k u => exact .inl ⟨k, u, completes_of_ruleOf ho, rfl⟩
  | blocked =>
    obtain ⟨⟨d, rfl⟩, -⟩ := ruleOf_eq_blocked i s ho
    exact .inr (.inl ⟨d, rfl, rfl⟩)
  | halt u =>
    obtain ⟨rfl, -, rfl⟩ := ruleOf_eq_halt i s u ho
    exact .inr (.inr (.inl ⟨rfl, rfl⟩))
  | fault r => exact .inr (.inr (.inr ⟨r, rfl⟩))

/-- `Exec1` completes exactly when its instruction is fetched and completes (60_exceptions.md R94). -/
theorem exec1_eq_done {s t : State} {k : DoneKind} :
    exec1 s = .done k t ↔ ∃ i, s.fetchInstr = .ok i ∧ ruleOf i s = .done k t := by
  unfold exec1
  cases s.fetchInstr <;> simp

theorem exec1_eq_blocked {s : State} :
    exec1 s = .blocked ↔ ∃ d a, s.fetchInstr = .ok (.inp d) ∧ s.destAddress d = .ok a ∧ s.input = [] := by
  unfold exec1
  cases s.fetchInstr with
  | error r => simp
  | ok i =>
    constructor
    · intro h
      obtain ⟨⟨d, rfl⟩, hinput⟩ := ruleOf_eq_blocked i s h
      obtain ⟨⟨a, ha⟩, -⟩ := (inRule_eq_blocked d s).1 h
      exact ⟨d, a, rfl, ha, hinput⟩
    · rintro ⟨d, a, hi, ha, hinput⟩
      obtain rfl := Except.ok.inj hi
      exact (inRule_eq_blocked d s).2 ⟨⟨a, ha⟩, hinput⟩

theorem exec1_eq_halt {s t : State} :
    exec1 s = .halt t ↔ s.fetchInstr = .ok .hlt ∧ s.pc + 1 ≤ s.config.addrMax ∧ t = s.setPc (s.pc + 1) := by
  unfold exec1
  cases s.fetchInstr with
  | error r => simp
  | ok i =>
    constructor
    · intro h
      obtain ⟨rfl, hpc, ht⟩ := ruleOf_eq_halt i s t h
      exact ⟨rfl, hpc, ht⟩
    · rintro ⟨hi, h⟩
      obtain rfl := Except.ok.inj hi
      exact (hltRule_eq_halt s t).2 h

theorem completes_of_exec1 {s t : State} {k : DoneKind} (h : exec1 s = .done k t) :
    ∃ i, s.fetchInstr = .ok i ∧ s.Completes i k t := by
  obtain ⟨i, hi, hrule⟩ := exec1_eq_done.1 h
  exact ⟨i, hi, completes_of_ruleOf hrule⟩

/-- What one step does to the state before it: nothing but the status and the fault record, or an HLT's new pc, or what
a completed instruction does (60_exceptions.md R95, R97). -/
theorem step_cases {s t : State} (h : step s = .next t) :
    (∃ x f, t = { s with status := x, fault := f }) ∨
      (∃ n, t = (s.setPc n).setStatus .halted) ∨
      ∃ i k u, s.fetchInstr = .ok i ∧ (s.setStatus .running).Completes i k u ∧ t = u.setStatus .paused := by
  cases hs : s.status.terminal with
  | true =>
    rw [step_of_terminal s hs] at h
    exact .inl ⟨s.status, s.fault, (Host.Outcome.next.inj h).symm⟩
  | false =>
    rw [step_eq_settled s hs] at h
    obtain rfl := Host.Outcome.next.inj h
    cases ho : exec1 (s.setStatus .running) with
    | done k u =>
      obtain ⟨i, hi, hu⟩ := completes_of_exec1 ho
      exact .inr (.inr ⟨i, k, u, by simpa using hi, hu, rfl⟩)
    | blocked => exact .inl ⟨.pendingInput, s.fault, rfl⟩
    | halt u =>
      obtain ⟨-, -, rfl⟩ := exec1_eq_halt.1 ho
      exact .inr (.inl ⟨s.pc + 1, rfl⟩)
    | fault r => exact .inl ⟨.faulted, some ⟨r.cause, s.pc, r.info⟩, rfl⟩

/-! ## The status after a step (60_exceptions.md R93, R95) -/

theorem State.settled_status_eq_halted_iff (s : State) (o : InstrOutcome) :
    (s.settled o).status = .halted ↔ ∃ t, o = .halt t := by
  cases o <;> simp [State.settled]

theorem State.settled_status_eq_pendingInput_iff (s : State) (o : InstrOutcome) :
    (s.settled o).status = .pendingInput ↔ o = .blocked := by
  cases o <;> simp [State.settled]

/-- Settles O26: Settle reads the status off the outcome, and only HLT halts and only IN blocks. -/
theorem statusAfterAStep : Obligations.StatusAfterAStep := by
  intro s t hs h
  rw [step_eq_settled s hs] at h
  obtain rfl := Host.Outcome.next.inj h
  refine ⟨?_, ?_, State.settled_status_ne_running _ _⟩
  · simp [State.settled_status_eq_halted_iff, exec1_eq_halt]
  · simp [State.settled_status_eq_pendingInput_iff, exec1_eq_blocked]

/-- Settles O27: of the ways a step ends only a completed ADJ writes the base. -/
theorem onlyAdjChangesBase : Obligations.OnlyAdjChangesBase := by
  intro s t h hne
  obtain ⟨x, f, rfl⟩ | ⟨n, rfl⟩ | ⟨i, k, u, hi, hu, rfl⟩ := step_cases h
  · exact absurd rfl hne
  · exact absurd rfl hne
  · by_contra hadj
    exact hne (hu.base_eq fun a hia => hadj ⟨a, hia ▸ hi⟩)

/-- Settles O28: of the ways a step ends only a completed IN and a completed OUT reach the Devices. -/
theorem devicesOnlyByInAndOut : Obligations.DevicesOnlyByInAndOut := by
  intro s t h
  obtain ⟨x, f, rfl⟩ | ⟨n, rfl⟩ | ⟨i, k, u, hi, hu, rfl⟩ := step_cases h
  · exact ⟨(absurd rfl ·), (absurd rfl ·)⟩
  · exact ⟨(absurd rfl ·), (absurd rfl ·)⟩
  · obtain ⟨-, hin, hout⟩ | ⟨-, ⟨d, rfl⟩, ⟨v, hv⟩, hout⟩ | ⟨-, hin, a, v, rfl, hv, hout⟩ := hu.devices
    · exact ⟨(absurd hin ·), (absurd hout ·)⟩
    · exact ⟨fun _ => ⟨d, v, hi, hv⟩, (absurd hout ·)⟩
    · rw [State.readOperand_setStatus] at hv
      exact ⟨(absurd hin ·), fun _ => ⟨a, v, hi, hv, hout⟩⟩

/-! ## The frames of the instructions (10_state.md R18, 20_memory.md R46) -/

theorem State.memRead_memWrite_of_ne {s : State} {x y : Nat} (v : Word) (hwf : Memory.wf s.mem = true) (hy : y ≠ x) :
    (s.memWrite x v).memRead y = s.memRead y := by
  rw [State.memRead_memWrite_eq_read, Memory.read_write _ _ _ _ hwf, if_neg hy]
  rfl

/-- A storing instruction changes only status and fault record, or it completes with one write to its destination and
at most one word taken, and that by IN. -/
theorem exec_storing_cases {i : Instr} {s t : State} {d : Destination} (hi : i.dest = some d) (h : exec i s = .next t) :
    (∃ x, t = s.setStatus x) ∨ (∃ r, t = s.takeFault r) ∨
      ∃ x v n input, s.destAddress d = .ok x ∧ (input = s.input ∨ i = .inp d ∧ ∃ w, s.input = w :: input) ∧
        t = (({ s with input := input }.memWrite x v).setPc n).setStatus .paused := by
  obtain ⟨k, u, hu, rfl⟩ | ⟨_, -, rfl⟩ | ⟨rfl, -⟩ | ⟨r, rfl⟩ := exec_cases h
  · refine .inr (.inr ?_)
    cases hu with
    | store hdest hx =>
      obtain rfl := Option.some.inj (hdest.symm.trans hi)
      exact ⟨_, _, _, s.input, hx, .inl rfl, rfl⟩
    | input hx hinput =>
      obtain rfl := Option.some.inj hi
      exact ⟨_, _, _, _, hx, .inr ⟨rfl, _, hinput⟩, rfl⟩
    | jump hjump => rcases hjump with rfl | rfl <;> cases hi
    | output | adj => cases hi
  · exact .inl ⟨_, rfl⟩
  · cases hi
  · exact .inr (.inl ⟨r, rfl⟩)

/-- Settles O41: the state is one with only status and fault record changed, or one with the destination written. -/
theorem storingFrame : Obligations.StoringFrame := by
  intro s t d i hi hwf h
  have hdest : i.dest = some d := by
    obtain ⟨a, b, rfl | rfl | rfl | rfl⟩ | rfl := hi <;> rfl
  obtain ⟨x, rfl⟩ | ⟨r, rfl⟩ | ⟨x, v, n, input, hx, hinput, rfl⟩ := exec_storing_cases hdest h
  · exact ⟨rfl, rfl, rfl, rfl, .inl rfl, fun _ => rfl, fun _ _ _ _ => rfl, fun _ _ => rfl⟩
  · exact ⟨rfl, rfl, rfl, rfl, .inl rfl, (absurd rfl ·), fun _ _ _ _ => rfl, fun _ _ => rfl⟩
  · refine ⟨rfl, rfl, rfl, rfl, hinput, fun _ => rfl, fun x' hx' y hy => ?_, fun hno => absurd hx (hno x)⟩
    obtain rfl := Except.ok.inj (hx.symm.trans hx')
    exact State.memRead_memWrite_of_ne (s := { s with input := input }) v hwf hy

/-- An instruction that stores nothing leaves the memory and the input Device, ADJ apart the base, and OUT apart the
output Device. -/
theorem exec_nonStoring_frame {i : Instr} {s t : State} (hi : i.dest = none) (h : exec i s = .next t) :
    t.config = s.config ∧ t.imageLen = s.imageLen ∧ t.mem = s.mem ∧ t.input = s.input ∧
      (t.status ≠ .faulted → t.fault = s.fault) ∧ ((∀ a, i ≠ .adj a) → t.base = s.base) ∧
      (t.output = s.output ∨ ∃ a v, i = .out a ∧ s.readOperand a = .ok v ∧ t.output = s.output ++ [v]) := by
  obtain ⟨k, u, hu, rfl⟩ | ⟨d, rfl, -⟩ | ⟨-, rfl⟩ | ⟨r, rfl⟩ := exec_cases h
  · cases hu with
    | store hdest => cases hdest.symm.trans hi
    | input => cases hi
    | output hv => exact ⟨rfl, rfl, rfl, rfl, fun _ => rfl, fun _ => rfl, .inr ⟨_, _, rfl, hv, rfl⟩⟩
    | jump => exact ⟨rfl, rfl, rfl, rfl, fun _ => rfl, fun _ => rfl, .inl rfl⟩
    | adj => exact ⟨rfl, rfl, rfl, rfl, fun _ => rfl, (absurd rfl <| · _), .inl rfl⟩
  · cases hi
  · exact ⟨rfl, rfl, rfl, rfl, fun _ => rfl, fun _ => rfl, .inl rfl⟩
  · exact ⟨rfl, rfl, rfl, rfl, (absurd rfl ·), fun _ => rfl, .inl rfl⟩

/-- Settles O42: the frame of an instruction without a destination, whose operand is the statement's. -/
theorem nonStoringFrame : Obligations.NonStoringFrame := by
  intro s t a target i hi h
  have hdest : i.dest = none := by rcases hi with rfl | rfl | rfl | rfl | rfl <;> rfl
  have hadj : i ≠ .adj a → ∀ b, i ≠ .adj b := by rcases hi with rfl | rfl | rfl | rfl | rfl <;> simp
  have hout : ∀ b, i = .out b → b = a := by rcases hi with rfl | rfl | rfl | rfl | rfl <;> simp
  obtain ⟨hconfig, himage, hmem, hinput, hfault, hbase, houtput⟩ := exec_nonStoring_frame hdest h
  refine ⟨hconfig, himage, hmem, fun y => by rw [State.memRead, hmem]; rfl, hinput, hfault, fun hne => hbase (hadj hne),
    houtput.imp_right ?_⟩
  rintro ⟨b, v, hib, hv, ho⟩
  obtain rfl := hout b hib
  exact ⟨hib, v, hv, ho⟩

end Sys2Proof.Machine
end

section
/-! SUPPORT. The invariant of a Machine (10_state.md R19 to R29): each update of the state keeps it, so every
instruction and every host operation does. -/

namespace Sys2Proof.Machine

/-! ## The canonical form of memory -/

theorem Memory.read_cons_self (a : Nat) (v : Word) (m : Memory) : Memory.read ((a, v) :: m) a = v :=
  if_pos rfl

/-- The least listed address is the least that does not read 0. -/
theorem Memory.head_le_of_read_ne_zero {c : Nat × Word} {m : Memory} {a : Nat} (hwf : Memory.wf (c :: m) = true)
    (ha : Memory.read (c :: m) a ≠ 0) : c.1 ≤ a := by
  obtain ⟨-, hlt, -⟩ := (Memory.wf_cons c m).1 hwf
  by_contra hac
  refine ha (Memory.read_of_lt _ a fun d hd => ?_)
  obtain rfl | hd := List.mem_cons.1 hd
  · exact Nat.lt_of_not_le hac
  · exact (Nat.lt_of_not_le hac).trans (hlt d hd)

/-- Settles O6: by induction on both lists. Two memories that read alike list the same least address with the same word,
and their rests read alike, as both read 0 at that address. -/
theorem canonicalMemoriesAgree : Obligations.CanonicalMemoriesAgree := by
  intro m
  induction m with
  | nil =>
    rintro (_ | ⟨⟨b, w⟩, n⟩) - hn hread
    · rfl
    · obtain ⟨hw, -, -⟩ := (Memory.wf_cons _ _).1 hn
      exact absurd ((Memory.read_cons_self b w n).symm.trans (hread b).symm) hw
  | cons c m ih =>
    obtain ⟨a, v⟩ := c
    rintro (_ | ⟨⟨b, w⟩, n⟩) hm hn hread
    · obtain ⟨hv, -, -⟩ := (Memory.wf_cons _ _).1 hm
      exact absurd ((Memory.read_cons_self a v m).symm.trans (hread a)) hv
    · obtain ⟨hv, hlow, htail⟩ := (Memory.wf_cons _ _).1 hm
      obtain ⟨hw, hlow', htail'⟩ := (Memory.wf_cons _ _).1 hn
      have hba : b ≤ a := Memory.head_le_of_read_ne_zero hn (by rwa [← hread, Memory.read_cons_self])
      have hab : a ≤ b := Memory.head_le_of_read_ne_zero hm (by rwa [hread, Memory.read_cons_self])
      obtain rfl : a = b := Nat.le_antisymm hab hba
      obtain rfl : v = w := by simpa [Memory.read_cons_self] using hread a
      rw [ih n htail htail' fun x => ?_]
      by_cases hx : x = a
      · rw [hx, Memory.read_of_lt m a hlow, Memory.read_of_lt n a hlow']
      · simpa [Memory.read, hx] using hread x

/-- Settles O8: a fetch reads the memory, and a write moves neither the address space nor the image. -/
theorem fetchSeesEveryWrite : Obligations.FetchSeesEveryWrite := by
  intro s a b v w hwf h
  obtain ⟨hspace, himage, rfl⟩ := (State.fetch_eq_ok ..).1 h
  exact (State.fetch_eq_ok ..).2 ⟨hspace, himage, (Memory.read_write _ _ _ _ hwf).symm⟩

/-! ## What holds of a Machine with the invariant -/

theorem Config.zero_inRange (c : Config) : c.inRange 0 := by
  simp only [Config.inRange, Config.wordMax_eq, Config.wordMin_eq]
  omega

/-- A cell reads 0 or as its entry. -/
theorem Memory.read_eq_zero_or_mem (m : Memory) (a : Nat) : Memory.read m a = 0 ∨ (a, Memory.read m a) ∈ m := by
  induction m with
  | nil => exact .inl rfl
  | cons c m ih =>
    obtain ⟨k, w⟩ := c
    by_cases h : a = k
    · simp [Memory.read, h]
    · simp only [Memory.read, if_neg h]
      exact ih.imp_right (List.mem_cons_of_mem _)

/-- Every cell holds a Word (10_state.md R27). -/
theorem State.Inv.memRead_inRange {s : State} (h : s.Inv) (a : Nat) : s.config.inRange (s.memRead a) := by
  obtain h0 | hmem := Memory.read_eq_zero_or_mem s.mem a
  · rw [State.memRead, h0]
    exact Config.zero_inRange _
  · exact (h.memWords _ hmem).2

theorem State.Inv.fetchParam_inRange {s : State} (h : s.Inv) {n k : Nat} {p : Word} (hp : s.fetchParam n k = .ok p) :
    s.config.inRange p := by
  unfold State.fetchParam at hp
  split at hp
  · obtain ⟨-, -, rfl⟩ := (State.fetch_eq_ok ..).1 hp
    exact h.memRead_inRange _
  · obtain rfl := Except.ok.inj hp
    exact Config.zero_inRange _

theorem ofDecoder_eq_ok {α : Type} {w : Word} {x : Except Reject α} {a : α} : ofDecoder w x = .ok a ↔ x = .ok a := by
  cases x <;> simp

/-- The parameters of a fetched instruction are Words (30_encoding.md R52). -/
theorem State.Inv.params_inRange {s : State} (h : s.Inv) {i : Instr} (hi : s.fetchInstr = .ok i) :
    ∀ p ∈ i.params, s.config.inRange p := by
  simp only [State.fetchInstr, Checked.bind_eq_ok, ofDecoder_eq_ok] at hi
  obtain ⟨w, -, hd, -, p1, h1, p2, h2, p3, h3, hassemble⟩ := hi
  intro p hp
  rw [Header.params_of_assemble hassemble] at hp
  obtain rfl | rfl | rfl : p = p1 ∨ p = p2 ∨ p = p3 := by simpa using List.mem_of_mem_take hp
  exacts [h.fetchParam_inRange h1, h.fetchParam_inRange h2, h.fetchParam_inRange h3]

/-- An operand is a Word when its parameter is one (20_memory.md R40). -/
theorem State.Inv.readOperand_inRange {s : State} (h : s.Inv) {o : Source} {v : Word} (hp : s.config.inRange o.param)
    (hv : s.readOperand o = .ok v) : s.config.inRange v := by
  cases o with
  | immediate p => exact Except.ok.inj hv ▸ hp
  | position p =>
    obtain ⟨a, -, ha⟩ := (Checked.bind_eq_ok _ _ _).1 hv
    exact Except.ok.inj ha ▸ h.memRead_inRange a
  | relative p =>
    obtain ⟨a, -, ha⟩ := (Checked.bind_eq_ok _ _ _).1 hv
    exact Except.ok.inj ha ▸ h.memRead_inRange a

/-! ## Each update keeps the invariant -/

section
variable {s : State} (h : s.Inv)
include h

theorem State.Inv.memWrite {a : Nat} {v : Word} (ha : a ≤ s.config.addrMax) (hv : s.config.inRange v) :
    (s.memWrite a v).Inv :=
  { h with
    memCanonical := Memory.wf_write _ _ _ h.memCanonical
    memWords := fun c hc => by
      obtain rfl | hc := Memory.mem_write _ _ _ _ hc
      exacts [⟨ha, hv⟩, h.memWords c hc] }

theorem State.Inv.setPc {n : Nat} (hn : n ≤ s.config.addrMax) : (s.setPc n).Inv := { h with pcInSpace := hn }

theorem State.Inv.setBase {v : Word} (hv : s.config.inRange v) : (s.setBase v).Inv := { h with baseWord := hv }

theorem State.Inv.withInput {ws : List Word} (hws : ∀ v ∈ ws, s.config.inRange v) :
    ({ s with input := ws } : State).Inv :=
  { h with inputWords := hws }

theorem State.Inv.withOutput {ws : List Word} (hws : ∀ v ∈ ws, s.config.inRange v) :
    ({ s with output := ws } : State).Inv :=
  { h with outputWords := hws }

theorem State.Inv.outPush {v : Word} (hv : s.config.inRange v) : (s.outPush v).Inv :=
  h.withOutput (List.forall_mem_append.2 ⟨h.outputWords, List.forall_mem_singleton.2 hv⟩)

/-- Any status but Faulted goes with an empty fault record (10_state.md R26). -/
theorem State.Inv.setStatus {x : Status} (hs : s.status ≠ .faulted) (hx : x ≠ .faulted) : (s.setStatus x).Inv :=
  { h with faultRecorded := iff_of_false hx fun hf => hs (h.faultRecorded.2 hf) }

theorem State.Inv.takeFault (r : Raised) : (s.takeFault r).Inv :=
  { h with
    faultRecorded := iff_of_true rfl nofun
    faultPcInSpace := fun _ hr => Option.some.inj hr ▸ h.pcInSpace }

/-! ## Instructions keep the invariant -/

theorem State.Inv.completes {i : Instr} {k : DoneKind} {t : State} (hi : s.fetchInstr = .ok i)
    (ht : s.Completes i k t) : t.Inv := by
  have hparams := h.params_inRange hi
  cases ht with
  | store _ hx hr hpc => exact (h.memWrite (s.destAddress_le _ _ hx) (hr h.configLegal)).setPc hpc
  | input hx hinput hpc =>
    obtain ⟨hv, hrest⟩ := List.forall_mem_cons.1 (hinput ▸ h.inputWords)
    exact ((h.withInput hrest).memWrite (s.destAddress_le _ _ hx) hv).setPc hpc
  | output hv hpc => exact (h.outPush (h.readOperand_inRange (hparams _ (List.mem_cons_self ..)) hv)).setPc hpc
  | @jump _ a target n hjump hn =>
    obtain hread | hpc := hn
    · have htarget : target.param ∈ i.params := by rcases hjump with rfl | rfl <;> simp [Instr.params]
      obtain ⟨-, hmax⟩ := h.readOperand_inRange (hparams _ htarget) hread
      exact h.setPc (Int.ofNat_le.1 hmax)
    · exact h.setPc hpc
  | adj hb hpc => exact (h.setBase hb).setPc hpc

theorem State.Inv.exec1_done {k : DoneKind} {t : State} (ht : exec1 s = .done k t) : t.Inv := by
  obtain ⟨i, hi, hcompletes⟩ := completes_of_exec1 ht
  exact h.completes hi hcompletes

/-- Settling an instruction's outcome keeps the invariant, from any status in which one runs. -/
theorem State.Inv.settled_exec1 (hs : s.status ≠ .faulted) : (s.settled (exec1 s)).Inv := by
  cases ho : exec1 s with
  | done k t =>
    obtain ⟨i, -, hcompletes⟩ := completes_of_exec1 ho
    exact (h.exec1_done ho).setStatus (hcompletes.status_eq ▸ hs) (by decide)
  | blocked => exact h.setStatus hs (by decide)
  | halt t =>
    obtain ⟨-, hpc, rfl⟩ := exec1_eq_halt.1 ho
    exact (h.setPc hpc).setStatus hs (by decide)
  | fault r => exact h.takeFault r

theorem State.Inv.running (hs : s.status.terminal = false) : (s.setStatus .running).Inv :=
  h.setStatus (fun hf => by simp [hf, Status.terminal] at hs) (by decide)

end

/-- Settles O24: a step in a terminal status changes nothing, and any other settles the outcome of one instruction. -/
theorem stepKeepsInvariant : Obligations.StepKeepsInvariant := by
  intro s t hinv h
  cases hs : s.status.terminal with
  | true =>
    rw [step_of_terminal s hs] at h
    exact Host.Outcome.next.inj h ▸ hinv
  | false =>
    rw [step_eq_settled s hs] at h
    exact Host.Outcome.next.inj h ▸ (hinv.running hs).settled_exec1 (by simp)

/-! ## What a run operation keeps -/

/-- What holds when a run operation's loop begins, and is kept by every completed instruction that does not end it,
holds before the loop's last instruction, whose settled outcome the loop returns (60_exceptions.md R98 to R100). -/
theorem runLoop_returned_of_kept {op : RunOp} {P : State → Prop} {n : Nat} {s t : State}
    (hkeep : ∀ u v k, P u → exec1 u = .done k v → op.stopsAfter k = false → P v) (hs : P s)
    (h : runLoop op n s = .returned t) :
    ∃ u, P u ∧ (∀ k v, exec1 u = .done k v → op.stopsAfter k = true) ∧ t = u.settled (exec1 u) := by
  induction n generalizing s with
  | zero => cases h
  | succ n ih =>
    obtain ⟨hstop, ht⟩ | ⟨k, u, hu, hk, hrest⟩ := (runLoop_succ_eq_returned op n s t).1 h
    · exact ⟨s, hs, hstop, ht⟩
    · exact ih (hkeep s u k hs hu hk) hrest

/-- The same for a run operation begun in a status in which it executes: what holds in Running holds before its last
instruction. -/
theorem run_returned_of_kept {op : RunOp} {P : State → Prop} {fuel : Nat} {s t : State}
    (hkeep : ∀ u v k, P u → exec1 u = .done k v → op.stopsAfter k = false → P v) (hs : P (s.setStatus .running))
    (hterm : s.status.terminal = false) (h : run op fuel s = .returned t) :
    ∃ u, P u ∧ (∀ k v, exec1 u = .done k v → op.stopsAfter k = true) ∧ t = u.settled (exec1 u) := by
  obtain ⟨hterm', -⟩ | ⟨-, hloop⟩ := (run_eq_returned op fuel s t).1 h
  · simp [hterm] at hterm'
  · exact runLoop_returned_of_kept hkeep hs hloop

theorem exec1_done_status {s t : State} {k : DoneKind} (h : exec1 s = .done k t) : t.status = s.status := by
  obtain ⟨i, -, hcompletes⟩ := completes_of_exec1 h
  exact hcompletes.status_eq

theorem exec1_done_config {s t : State} {k : DoneKind} (h : exec1 s = .done k t) : t.config = s.config := by
  obtain ⟨i, -, hcompletes⟩ := completes_of_exec1 h
  exact hcompletes.config_eq

theorem settled_exec1_config (s : State) : (s.settled (exec1 s)).config = s.config := by
  cases ho : exec1 s with
  | done k t => exact (exec1_done_config ho : t.config = s.config)
  | halt t =>
    obtain ⟨-, -, rfl⟩ := exec1_eq_halt.1 ho
    rfl
  | blocked | fault => rfl

theorem run_keeps_inv {op : RunOp} {fuel : Nat} {s t : State} (hinv : s.Inv) (h : run op fuel s = .returned t) :
    t.Inv ∧ t.config = s.config := by
  cases hs : s.status.terminal with
  | true =>
    rw [run_of_terminal op fuel hs] at h
    exact RunResult.returned.inj h ▸ ⟨hinv, rfl⟩
  | false =>
    obtain ⟨u, ⟨hu, hstatus, hconfig⟩, -, rfl⟩ :=
      run_returned_of_kept (P := fun u => u.Inv ∧ u.status = .running ∧ u.config = s.config)
        (fun _ _ _ ⟨hu, hstatus, hconfig⟩ hv _ =>
          ⟨hu.exec1_done hv, (exec1_done_status hv).trans hstatus, (exec1_done_config hv).trans hconfig⟩)
        ⟨hinv.running hs, rfl, rfl⟩ hs h
    exact ⟨hu.settled_exec1 (by simp [hstatus]), (settled_exec1_config u).trans hconfig⟩

/-! ## The host's pushes and reloads -/

/-- Pushes succeed exactly when every value is a Word, and then append them in order (60_exceptions.md R109). -/
theorem pushInput_foldlM_eq_ok {s t : State} {ws : List Int} :
    ws.foldlM State.pushInput s = .ok t ↔ (∀ v ∈ ws, s.config.inRange v) ∧ t = { s with input := s.input ++ ws } := by
  refine ⟨fun h => ?_, fun ⟨hws, ht⟩ => ht ▸ pushInput_foldlM s ws hws⟩
  have hws : ∀ v ∈ ws, s.config.inRange v := by
    induction ws generalizing s with
    | nil => simp
    | cons v ws ih =>
      rw [List.foldlM_cons] at h
      by_cases hv : s.config.inRange v
      · rw [State.pushInput_of_inRange hv] at h
        exact List.forall_mem_cons.2 ⟨hv, ih (s := { s with input := s.input ++ [v] }) h⟩
      · rw [State.pushInput_of_not_inRange hv] at h
        cases h
  exact ⟨hws, (Except.ok.inj ((pushInput_foldlM s ws hws).symm.trans h)).symm⟩

theorem pushInput_eq_ok {s t : State} {v : Int} :
    s.pushInput v = .ok t ↔ s.config.inRange v ∧ t = { s with input := s.input ++ [v] } := by
  simpa using pushInput_foldlM_eq_ok (s := s) (t := t) (ws := [v])

/-- PushAscii without a refused character is a push of every character's code (60_exceptions.md R110). -/
theorem State.pushAscii_of_allowed {s : State} {cs : List Char} (h : ∀ c ∈ cs, allowedChar c = true) :
    s.pushAscii cs = (cs.map fun c => (c.toNat : Int)).foldlM State.pushInput s := by
  have hnone : cs.find? (fun c => !allowedChar c) = none := by simpa using h
  rw [State.pushAscii, hnone, List.foldlM_map]

theorem State.pushAscii_of_refused {s : State} {cs : List Char} (h : ∃ c ∈ cs, allowedChar c = false) :
    ∃ e, s.pushAscii cs = .error e := by
  obtain ⟨c, hc⟩ : ∃ c, cs.find? (fun c => !allowedChar c) = some c := by
    rw [← Option.isSome_iff_exists]
    simpa using h
  exact ⟨.notACharacter c, by rw [State.pushAscii, hc]⟩

theorem State.exists_of_pushAscii {s t : State} {cs : List Char} (h : s.pushAscii cs = .ok t) :
    ∃ ws, (∀ v ∈ ws, s.config.inRange v) ∧ t = { s with input := s.input ++ ws } := by
  by_cases hc : ∀ c ∈ cs, allowedChar c = true
  · rw [State.pushAscii_of_allowed hc] at h
    exact ⟨_, pushInput_foldlM_eq_ok.1 h⟩
  · obtain ⟨e, he⟩ := State.pushAscii_of_refused (s := s) (cs := cs) (by simpa using hc)
    cases he.symm.trans h

theorem State.eq_loaded_of_construct {c : Config} {p : List Int} {s : State} (h : State.construct c p = .ok s) :
    c.legal = true ∧ checkProgram c p = .ok () ∧ s = State.loaded c p [] [] := by
  have hp := State.checkProgram_of_construct h
  have hc : c.legal = true := by
    by_contra hc
    simp [State.construct, hc, bind, Except.bind] at h
  exact ⟨hc, hp, Except.ok.inj (h.symm.trans (State.construct_of_legal hc hp))⟩

/-- Reload leaves a loaded Machine, with the Devices' words kept or gone (70_reset_and_hazards.md R127). -/
theorem State.eq_loaded_of_reload {s t : State} {p : List Int} {ports : ReloadPorts} (h : s.reload p ports = .ok t) :
    checkProgram s.config p = .ok () ∧
      (t = State.loaded s.config p s.input s.output ∨ t = State.loaded s.config p [] []) := by
  cases hp : checkProgram s.config p with
  | error e => simp [State.reload, hp, bind, Except.bind] at h
  | ok _ =>
    refine ⟨rfl, ?_⟩
    cases ports with
    | preserve => exact .inl (Except.ok.inj (h.symm.trans (State.reload_preserve hp)))
    | clear => exact .inr (Except.ok.inj (h.symm.trans (State.reload_clear hp)))

theorem State.popOutput_cases (s : State) :
    (∃ v rest, s.output = v :: rest ∧ s.popOutput.2 = { s with output := rest }) ∨
      s.popOutput.2 = s.takeFault ⟨.outputEmpty, 0⟩ := by
  cases ho : s.output with
  | nil => exact .inr (by rw [State.popOutput_of_nil ho])
  | cons v rest => exact .inl ⟨v, rest, rfl, by rw [State.popOutput_of_cons ho]⟩

/-- What a host operation on a Machine ends in (60_exceptions.md R108 to R111, 70_reset_and_hazards.md R127): what a run
operation returns, words pushed, a word popped, `OutputEmpty`, or a loaded Machine. A refused operation pushes no
words. -/
theorem State.Does.cases {s t : State} {c : HostCommand} (h : s.Does c t) :
    (∃ op fuel, run op fuel s = .returned t) ∨
      (∃ ws, (∀ v ∈ ws, s.config.inRange v) ∧ t = { s with input := s.input ++ ws }) ∨
      (∃ v rest, s.output = v :: rest ∧ t = { s with output := rest }) ∨
      (∃ r, t = s.takeFault r) ∨
      ∃ p ports, c = .reload p ports ∧ checkProgram s.config p = .ok () ∧
        (t = State.loaded s.config p s.input s.output ∨ t = State.loaded s.config p [] []) := by
  have hnone : ∃ ws, (∀ v ∈ ws, s.config.inRange v) ∧ s = { s with input := s.input ++ ws } := ⟨[], by simp⟩
  cases c with
  | run op =>
    obtain ⟨fuel, hrun⟩ := h
    exact .inl ⟨op, fuel, hrun⟩
  | pushInput v =>
    refine .inr (.inl ?_)
    obtain rfl := h
    cases hpush : s.pushInput v with
    | error e => exact hnone
    | ok t =>
      obtain ⟨hv, rfl⟩ := pushInput_eq_ok.1 hpush
      exact ⟨[v], by simpa using hv, rfl⟩
  | pushAscii cs =>
    refine .inr (.inl ?_)
    obtain rfl := h
    cases hpush : s.pushAscii cs with
    | error e => exact hnone
    | ok t => exact State.exists_of_pushAscii hpush
  | popOutput =>
    obtain rfl := h
    exact .inr (.inr (s.popOutput_cases.imp_right fun hp => .inl ⟨_, hp⟩))
  | reload p ports =>
    obtain rfl := h
    cases hreload : s.reload p ports with
    | error e => exact .inr (.inl hnone)
    | ok t => exact .inr (.inr (.inr (.inr ⟨p, ports, rfl, State.eq_loaded_of_reload hreload⟩)))

/-- A loaded Machine meets the invariant (70_reset_and_hazards.md R126, R127). -/
theorem State.inv_loaded {c : Config} {p input output : List Word} (hc : c.legal = true)
    (hp : checkProgram c p = .ok ()) (hin : ∀ v ∈ input, c.inRange v) (hout : ∀ v ∈ output, c.inRange v) :
    (State.loaded c p input output).Inv := by
  obtain ⟨hwords, hlen⟩ := (checkProgram_eq_ok c p).1 hp
  exact
    { configLegal := hc
      memCanonical := Memory.wf_load p 0
      memWords := fun d hd => by
        obtain ⟨-, hlt, hmem⟩ := Memory.mem_load p 0 d hd
        exact ⟨(by omega : d.1 ≤ c.addrMax), hwords _ hmem⟩
      imageFits := hlen
      pcInSpace := Nat.zero_le _
      baseWord := Config.zero_inRange c
      inputWords := hin
      outputWords := hout
      faultRecorded := iff_of_false nofun (absurd rfl ·)
      faultPcInSpace := nofun }

theorem State.hostVisible_eq_true {s : State} : s.hostVisible = true ↔ s.status ≠ .running := decide_eq_true_iff

/-- Settles O25: each way a host operation ends is an update that keeps the invariant and leaves the status visible. -/
theorem hostCommandsKeepInvariant : Obligations.HostCommandsKeepInvariant := by
  intro s t c hinv hvisible h
  obtain ⟨op, fuel, hrun⟩ | ⟨ws, hws, rfl⟩ | ⟨v, rest, hout, rfl⟩ | ⟨r, rfl⟩ | ⟨p, ports, -, hp, rfl | rfl⟩ := h.cases
  · obtain ⟨ht, hconfig⟩ := run_keeps_inv hinv hrun
    exact ⟨ht, State.hostVisible_eq_true.2 (run_returned_status_ne_running hrun), hconfig⟩
  · exact ⟨hinv.withInput (List.forall_mem_append.2 ⟨hinv.inputWords, hws⟩), hvisible, rfl⟩
  · obtain ⟨-, hrest⟩ := List.forall_mem_cons.1 (hout ▸ hinv.outputWords)
    exact ⟨hinv.withOutput hrest, hvisible, rfl⟩
  · exact ⟨hinv.takeFault r, rfl, rfl⟩
  · exact ⟨State.inv_loaded hinv.configLegal hp hinv.inputWords hinv.outputWords, rfl, rfl⟩
  · exact ⟨State.inv_loaded hinv.configLegal hp (by simp) (by simp), rfl, rfl⟩

/-! ## PendingInput (60_exceptions.md R93) -/

/-- Blocked or not, a Machine whose instruction was settled is in PendingInput only at an IN that resolves. -/
theorem State.blockedAtIn_settled (s : State) : (s.settled (exec1 s)).BlockedAtIn := by
  intro hpending
  have hblocked := (State.settled_status_eq_pendingInput_iff ..).1 hpending
  obtain ⟨d, a, hi, hd, -⟩ := exec1_eq_blocked.1 hblocked
  rw [hblocked]
  exact ⟨d, a, by simpa [State.settled] using hi, by simpa [State.settled] using hd⟩

theorem State.blockedAtIn_of_ne {s : State} (h : s.status ≠ .pendingInput) : s.BlockedAtIn := (absurd · h)

/-- Neither Device has a part in what an IN is or where its destination is. -/
theorem State.BlockedAtIn.withDevices {s : State} (h : s.BlockedAtIn) (input output : List Word) :
    ({ s with input := input, output := output } : State).BlockedAtIn := by
  intro hpending
  obtain ⟨d, a, hi, hd⟩ := h hpending
  exact ⟨d, a, (State.fetchInstr_congr s _ rfl rfl rfl rfl).trans hi,
    (State.destAddress_congr s _ d rfl rfl).trans hd⟩

theorem ne_pendingInput_of_terminal {x : Status} (h : x.terminal = true) : x ≠ .pendingInput := by
  rintro rfl
  cases h

theorem run_returned_blockedAtIn {op : RunOp} {fuel : Nat} {s t : State} (h : run op fuel s = .returned t) :
    t.BlockedAtIn := by
  obtain ⟨hterm, rfl⟩ | ⟨-, hloop⟩ := (run_eq_returned op fuel s t).1 h
  · exact State.blockedAtIn_of_ne (ne_pendingInput_of_terminal hterm)
  · obtain ⟨u, rfl⟩ := runLoop_returned_settled hloop
    exact u.blockedAtIn_settled

/-- Settles O60: a settled instruction is in PendingInput only when it blocked, and no host operation but a run enters
PendingInput or moves the instruction at pc. -/
theorem pendingMeansBlockedAtIn : Obligations.PendingMeansBlockedAtIn := by
  refine ⟨fun s t h => ?_, fun s t c hs h => ?_⟩
  · cases hterm : s.status.terminal with
    | true =>
      rw [step_of_terminal s hterm] at h
      exact Host.Outcome.next.inj h ▸ State.blockedAtIn_of_ne (ne_pendingInput_of_terminal hterm)
    | false =>
      rw [step_eq_settled s hterm] at h
      exact Host.Outcome.next.inj h ▸ State.blockedAtIn_settled _
  · obtain ⟨op, fuel, hrun⟩ | ⟨ws, -, rfl⟩ | ⟨v, rest, -, rfl⟩ | ⟨r, rfl⟩ | ⟨p, ports, -, -, rfl | rfl⟩ := h.cases
    · exact run_returned_blockedAtIn hrun
    · exact hs.withDevices _ _
    · exact hs.withDevices _ _
    · exact State.blockedAtIn_of_ne nofun
    · exact State.blockedAtIn_of_ne nofun
    · exact State.blockedAtIn_of_ne nofun

/-- Settles O5: pushes and pops keep the status or take a fault, and a run operation does nothing in a terminal
status. -/
theorem onlyReloadLeavesTerminal : Obligations.OnlyReloadLeavesTerminal := by
  intro s t c hs h ht
  obtain ⟨op, fuel, hrun⟩ | ⟨ws, -, rfl⟩ | ⟨v, rest, -, rfl⟩ | ⟨r, rfl⟩ | ⟨p, ports, hc, -⟩ := h.cases
  · rw [run_of_terminal op fuel hs] at hrun
    obtain rfl := RunResult.returned.inj hrun
    exact absurd (hs.symm.trans ht) (by decide)
  · exact absurd (hs.symm.trans ht) (by decide)
  · exact absurd (hs.symm.trans ht) (by decide)
  · cases ht
  · exact ⟨p, ports, hc⟩

/-! ## Reset and Construct -/

/-- Settles O3: State.reset is written out field by field, so each clause is a computation. -/
theorem resetIsTheEmptyMachine : Obligations.ResetIsTheEmptyMachine :=
  ⟨rfl, rfl, rfl, rfl, rfl, rfl, rfl, fun _ => rfl⟩

/-- Settles O4: a constructed Machine is a loaded one, and the reset state is constructed. -/
theorem resetMeetsInvariant : Obligations.ResetMeetsInvariant := by
  have hconstruct : ∀ (c : Config) (p : List Int) (s : State), State.construct c p = .ok s →
      s.Inv ∧ s.hostVisible = true ∧ s.BlockedAtIn := by
    intro c p s h
    obtain ⟨hc, hp, rfl⟩ := State.eq_loaded_of_construct h
    exact ⟨State.inv_loaded hc hp (by simp) (by simp), rfl, State.blockedAtIn_of_ne nofun⟩
  obtain ⟨hreset, -⟩ := resetIsTheEmptyMachine
  exact ⟨hconstruct _ _ _ hreset, hconstruct⟩

end Sys2Proof.Machine
end

section
/-! SUPPORT. What each instruction ends in when its operands resolve (40_alu.md to 43_base.md), and the fault when one
does not (60_exceptions.md R89). -/

namespace Sys2Proof.Machine

/-! ## From the rule's outcome to the next state -/

theorem exec_of_done {i : Instr} {s t : State} {k : DoneKind} (h : ruleOf i s = .done k t) :
    exec i s = .next (t.setStatus .paused) := by
  rw [exec_eq_settled, h]
  rfl

theorem exec_of_fault {i : Instr} {s : State} {r : Raised} (h : ruleOf i s = .fault r) :
    exec i s = .next { s with status := .faulted, fault := some ⟨r.cause, s.pc, r.info⟩ } := by
  rw [exec_eq_settled, h]
  rfl

theorem State.advance_of_lt {s : State} {k : Nat} (h : s.config.addrMax < s.pc + k) :
    s.advance k = .error ⟨.overflow, ((s.pc + k : Nat) : Int)⟩ :=
  if_pos h

theorem State.checkWord_of_inRange {s : State} {r : Int} (h : s.config.inRange r) : s.checkWord r = .ok r := if_pos h

theorem State.checkWord_of_not_inRange {s : State} {r : Int} (h : ¬ s.config.inRange r) :
    s.checkWord r = .error ⟨.overflow, r⟩ :=
  if_neg h

/-! ## ADD, MUL, LT and EQ -/

section
variable {s : State} {i : Instr} {f : Word → Word → Checked Word} {a b : Source} {d : Destination} {va vb : Word}
  {x : Nat} (hrule : ruleOf i s = threeOperandRule f a b d s) (ha : s.readOperand a = .ok va)
  (hb : s.readOperand b = .ok vb) (hx : s.destAddress d = .ok x)
include hrule ha hb hx

/-- The result is computed, pc can advance, and the result is written. -/
theorem exec_threeOperand_of_result {r : Word} (hr : f va vb = .ok r) (hpc : s.pc + 4 ≤ s.config.addrMax) :
    exec i s = .next { s with mem := s.mem.write x r, pc := s.pc + 4, status := .paused } :=
  exec_of_done (hrule.trans ((threeOperandRule_eq_done ..).2 ⟨rfl, va, vb, x, r, ha, hb, hx, hr, hpc, rfl⟩))

/-- The result's fault comes before that of Advance. -/
theorem exec_threeOperand_of_no_result {r : Raised} (hr : f va vb = .error r) :
    exec i s = .next { s with status := .faulted, fault := some ⟨r.cause, s.pc, r.info⟩ } :=
  exec_of_fault (by simp [hrule, threeOperandRule, ha, hb, hx, hr])

theorem exec_threeOperand_at_top {r : Word} (hr : f va vb = .ok r) (hpc : s.config.addrMax < s.pc + 4) :
    exec i s = .next { s with status := .faulted, fault := some ⟨.overflow, s.pc, ((s.pc + 4 : Nat) : Int)⟩ } :=
  exec_of_fault (r := ⟨.overflow, ((s.pc + 4 : Nat) : Int)⟩)
    (by simp [hrule, threeOperandRule, ha, hb, hx, hr, State.advance_of_lt hpc])

end

/-- ADD and MUL: the exact result must be a Word. -/
theorem exec_exact_result {s : State} {i : Instr} {g : Word → Word → Int} {a b : Source} {d : Destination}
    {va vb : Word} {x : Nat} (hrule : ruleOf i s = threeOperandRule (fun y z => s.checkWord (g y z)) a b d s)
    (ha : s.readOperand a = .ok va) (hb : s.readOperand b = .ok vb) (hx : s.destAddress d = .ok x) :
    (s.config.inRange (g va vb) → s.pc + 4 ≤ s.config.addrMax →
      exec i s = .next { s with mem := s.mem.write x (g va vb), pc := s.pc + 4, status := .paused }) ∧
    (¬ s.config.inRange (g va vb) →
      exec i s = .next { s with status := .faulted, fault := some ⟨.overflow, s.pc, g va vb⟩ }) ∧
    (s.config.inRange (g va vb) → s.config.addrMax < s.pc + 4 →
      exec i s = .next { s with status := .faulted, fault := some ⟨.overflow, s.pc, ((s.pc + 4 : Nat) : Int)⟩ }) :=
  ⟨fun hr => exec_threeOperand_of_result hrule ha hb hx (State.checkWord_of_inRange hr),
    fun hr => exec_threeOperand_of_no_result hrule ha hb hx (State.checkWord_of_not_inRange hr),
    fun hr => exec_threeOperand_at_top hrule ha hb hx (State.checkWord_of_inRange hr)⟩

/-- LT and EQ: there is always a result, 1 when the comparison holds and 0 when it does not. -/
theorem exec_comparison_result {s : State} {i : Instr} {compare : Word → Word → Bool} {a b : Source} {d : Destination}
    {va vb : Word} {x : Nat}
    (hrule : ruleOf i s = threeOperandRule (fun y z => .ok (comparisonWord (compare y z))) a b d s)
    (ha : s.readOperand a = .ok va) (hb : s.readOperand b = .ok vb) (hx : s.destAddress d = .ok x) :
    (s.pc + 4 ≤ s.config.addrMax → compare va vb = true →
      exec i s = .next { s with mem := s.mem.write x 1, pc := s.pc + 4, status := .paused }) ∧
    (s.pc + 4 ≤ s.config.addrMax → compare va vb = false →
      exec i s = .next { s with mem := s.mem.write x 0, pc := s.pc + 4, status := .paused }) ∧
    (s.config.addrMax < s.pc + 4 →
      exec i s = .next { s with status := .faulted, fault := some ⟨.overflow, s.pc, ((s.pc + 4 : Nat) : Int)⟩ }) :=
  ⟨fun hpc h => exec_threeOperand_of_result hrule ha hb hx (by rw [h]; rfl) hpc,
    fun hpc h => exec_threeOperand_of_result hrule ha hb hx (by rw [h]; rfl) hpc,
    exec_threeOperand_at_top hrule ha hb hx rfl⟩

/-- Settles O29: the sum is the exact result. -/
theorem addResult : Obligations.AddResult :=
  fun s a b d _ _ _ => exec_exact_result (g := (· + ·)) (ruleOf_add a b d s)

/-- Settles O30: the product is the exact result. -/
theorem mulResult : Obligations.MulResult :=
  fun s a b d _ _ _ => exec_exact_result (g := (· * ·)) (ruleOf_mul a b d s)

/-- Settles O31: the comparison is the signed one. -/
theorem ltResult : Obligations.LtResult := by
  intro s a b d va vb x ha hb hx
  obtain ⟨hone, hzero, htop⟩ := exec_comparison_result (ruleOf_lt a b d s) ha hb hx
  exact ⟨fun hpc hlt => hone hpc (decide_eq_true hlt), fun hpc hle => hzero hpc (decide_eq_false (not_lt.2 hle)), htop⟩

/-- Settles O32: the comparison is equality. -/
theorem eqResult : Obligations.EqResult := by
  intro s a b d va vb x ha hb hx
  obtain ⟨hone, hzero, htop⟩ := exec_comparison_result (ruleOf_eq a b d s) ha hb hx
  exact ⟨fun hpc heq => hone hpc (decide_eq_true heq), fun hpc hne => hzero hpc (decide_eq_false hne), htop⟩

/-! ## IN, OUT and ADJ -/

/-- Settles O33: a word in front of the input Device completes IN where pc can advance; without one IN blocks. -/
theorem inResult : Obligations.InResult := by
  intro s d x hx
  refine ⟨fun v rest hin hpc => ?_, fun hin => ?_, fun hin hpc => ?_⟩
  · exact exec_of_done (i := .inp d) ((inRule_eq_done ..).2 ⟨rfl, x, v, rest, hx, hin, hpc, rfl⟩)
  · rw [exec_eq_settled, show ruleOf (.inp d) s = .blocked from (inRule_eq_blocked d s).2 ⟨⟨x, hx⟩, hin⟩]
    rfl
  · obtain ⟨v, rest, hin⟩ := List.exists_cons_of_ne_nil hin
    exact exec_of_fault (r := ⟨.overflow, ((s.pc + 2 : Nat) : Int)⟩)
      (by simp [ruleOf, inRule, hx, State.inPop, hin, State.advance_of_lt hpc])

/-- Settles O34: OUT completes where pc can advance. -/
theorem outResult : Obligations.OutResult := by
  intro s a v hv
  refine ⟨fun hpc => ?_, fun hpc => ?_⟩
  · exact exec_of_done (i := .out a) ((outRule_eq_done ..).2 ⟨rfl, v, hv, hpc, rfl⟩)
  · exact exec_of_fault (r := ⟨.overflow, ((s.pc + 2 : Nat) : Int)⟩)
      (by simp [ruleOf, outRule, hv, State.advance_of_lt hpc])

/-- Settles O37: ADJ completes with a sum in range where pc can advance, and the sum's fault comes first. -/
theorem adjResult : Obligations.AdjResult := by
  intro s a v hv
  refine ⟨fun hr hpc => ?_, fun hr => ?_, fun hr hpc => ?_⟩
  · exact exec_of_done (i := .adj a) ((adjRule_eq_done ..).2 ⟨rfl, v, hv, hr, hpc, rfl⟩)
  · exact exec_of_fault (r := ⟨.overflow, s.base + v⟩)
      (by simp only [ruleOf, adjRule, hv, Checked.ok_bind, State.checkWord_of_not_inRange hr]; rfl)
  · exact exec_of_fault (r := ⟨.overflow, ((s.pc + 2 : Nat) : Int)⟩)
      (by simp only [ruleOf, adjRule, hv, Checked.ok_bind, State.checkWord_of_inRange hr, State.advance_of_lt hpc]; rfl)

/-! ## JNZ, JZ and HLT -/

/-- A jump's four cases: taken, taken below 0, not taken, not taken at the top of the address space. -/
theorem exec_jump_result {s : State} {i : Instr} {taken : Word → Bool} {a target : Source} {v w : Word}
    (hrule : ruleOf i s = jumpRule taken a target s) (hv : s.readOperand a = .ok v)
    (hw : s.readOperand target = .ok w) :
    (taken v = true → 0 ≤ w → exec i s = .next { s with pc := w.toNat, status := .paused }) ∧
    (taken v = true → w < 0 →
      exec i s = .next { s with status := .faulted, fault := some ⟨.negativeAddress, s.pc, w⟩ }) ∧
    (taken v = false → s.pc + 3 ≤ s.config.addrMax → exec i s = .next { s with pc := s.pc + 3, status := .paused }) ∧
    (taken v = false → s.config.addrMax < s.pc + 3 →
      exec i s = .next { s with status := .faulted, fault := some ⟨.overflow, s.pc, ((s.pc + 3 : Nat) : Int)⟩ }) := by
  refine ⟨fun ht hnonneg => ?_, fun ht hneg => ?_, fun ht hpc => ?_, fun ht hpc => ?_⟩
  · exact exec_of_done (hrule.trans ((jumpRule_eq_done ..).2 ⟨rfl, v, w, hv, hw, .inl ⟨ht, hnonneg, rfl⟩⟩))
  · exact exec_of_fault (r := ⟨.negativeAddress, w⟩) (by simp [hrule, jumpRule, hv, hw, ht, hneg, raise])
  · exact exec_of_done (hrule.trans ((jumpRule_eq_done ..).2 ⟨rfl, v, w, hv, hw, .inr ⟨ht, hpc, rfl⟩⟩))
  · exact exec_of_fault (r := ⟨.overflow, ((s.pc + 3 : Nat) : Int)⟩)
      (by simp [hrule, jumpRule, hv, hw, ht, State.advance_of_lt hpc])

/-- Settles O35: the jump's four cases, taken on a word that is not 0. -/
theorem jnzResult : Obligations.JnzResult := by
  intro s a target v w hv hw
  have htaken : isNonzero v = true ↔ v ≠ 0 := decide_eq_true_iff
  have hnot : isNonzero v = false ↔ v = 0 := by simp [isNonzero]
  rw [← htaken, ← hnot]
  exact exec_jump_result rfl hv hw

/-- Settles O36: the jump's four cases, taken on 0. -/
theorem jzResult : Obligations.JzResult := by
  intro s a target v w hv hw
  have htaken : isZero v = true ↔ v = 0 := decide_eq_true_iff
  have hnot : isZero v = false ↔ v ≠ 0 := decide_eq_false_iff_not
  rw [← htaken, ← hnot]
  exact exec_jump_result rfl hv hw

/-- Settles O38: HLT halts where pc can advance. -/
theorem hltResult : Obligations.HltResult := by
  intro s
  refine ⟨fun hpc => ?_, fun hpc => ?_⟩
  · rw [exec_eq_settled, show ruleOf .hlt s = .halt _ from (hltRule_eq_halt ..).2 ⟨hpc, rfl⟩]
    rfl
  · exact exec_of_fault (r := ⟨.overflow, ((s.pc + 1 : Nat) : Int)⟩)
      (by simp [ruleOf, hltRule, State.advance_of_lt hpc])

/-! ## The first operand that fails (60_exceptions.md R89, stage 7) -/

theorem threeOperandRule_of_operand_error {f : Word → Word → Checked Word} {s : State} {a b : Source}
    {d : Destination} {r : Raised}
    (h : s.readOperand a = .error r ∨
      (∃ v, s.readOperand a = .ok v) ∧ s.readOperand b = .error r ∨
      (∃ v, s.readOperand a = .ok v) ∧ (∃ v, s.readOperand b = .ok v) ∧ s.destAddress d = .error r) :
    threeOperandRule f a b d s = .fault r := by
  obtain ha | ⟨⟨va, ha⟩, hb⟩ | ⟨⟨va, ha⟩, ⟨vb, hb⟩, hd⟩ := h
  · simp [threeOperandRule, ha]
  · simp [threeOperandRule, ha, hb]
  · simp [threeOperandRule, ha, hb, hd]

theorem jumpRule_of_operand_error {taken : Word → Bool} {s : State} {a target : Source} {r : Raised}
    (h : s.readOperand a = .error r ∨ (∃ v, s.readOperand a = .ok v) ∧ s.readOperand target = .error r) :
    jumpRule taken a target s = .fault r := by
  obtain ha | ⟨⟨va, ha⟩, ht⟩ := h
  · simp [jumpRule, ha]
  · simp [jumpRule, ha, ht]

/-- Settles O39: each rule begins with its operands, so the first that fails is the rule's fault. -/
theorem operandFaultOrder : Obligations.OperandFaultOrder := by
  refine fun s r => ⟨fun a b d i hi h => exec_of_fault ?_, fun a t i hi h => exec_of_fault ?_,
    fun a i hi h => exec_of_fault ?_, fun d h => exec_of_fault ?_⟩
  · obtain ⟨f, hrule⟩ := ruleOf_threeOperand hi s
    rw [hrule, threeOperandRule_of_operand_error h]
  · obtain ⟨taken, hrule, -⟩ := ruleOf_jump hi s
    rw [hrule, jumpRule_of_operand_error h]
  · obtain rfl | rfl := hi
    · simp [ruleOf, outRule, h]
    · simp [ruleOf, adjRule, h]
  · simp [ruleOf, inRule, h]

end Sys2Proof.Machine
end

section
/-! SUPPORT. The run operations (60_exceptions.md R96 to R107): where each stops, what more fuel and splitting into
steps leave the same, and that a taken jump to itself never returns. -/

namespace Sys2Proof.Machine

/-! ## Where the run operations stop (60_exceptions.md R98 to R100, R105) -/

/-- What a completed instruction did at the Devices, by the kind of its outcome (30_encoding.md R61). -/
def DoneKind.Moved (s t : State) : DoneKind → Prop
  | .other => t.input = s.input ∧ t.output = s.output
  | .input => (∃ v, s.input = v :: t.input) ∧ t.output = s.output
  | .output => t.input = s.input ∧ ∃ v, t.output = s.output ++ [v]

theorem exec1_done_moved {s t : State} {k : DoneKind} (h : exec1 s = .done k t) : k.Moved s t := by
  obtain ⟨i, -, hcompletes⟩ := completes_of_exec1 h
  obtain ⟨rfl, hin, hout⟩ | ⟨rfl, -, hin, hout⟩ | ⟨rfl, hin, -, v, -, -, hout⟩ := hcompletes.devices
  exacts [⟨hin, hout⟩, ⟨hin, hout⟩, ⟨hin, v, hout⟩]

/-- A run operation's last instruction completes and stops it, or blocks on an empty input Device, halts or faults; the
last three leave the Devices as they were. -/
theorem settled_exec1_cases {op : RunOp} {u : State}
    (hstop : ∀ k v, exec1 u = .done k v → op.stopsAfter k = true) :
    (∃ k, op.stopsAfter k = true ∧ (u.settled (exec1 u)).status = .paused ∧ k.Moved u (u.settled (exec1 u))) ∨
      (((u.settled (exec1 u)).status = .pendingInput ∧ u.input = [] ∨ (u.settled (exec1 u)).status = .halted ∨
          (u.settled (exec1 u)).status = .faulted) ∧
        (u.settled (exec1 u)).input = u.input ∧ (u.settled (exec1 u)).output = u.output) := by
  cases ho : exec1 u with
  | done k v =>
    have hmoved := exec1_done_moved ho
    exact .inl ⟨k, hstop k v ho, rfl, by cases k <;> exact hmoved⟩
  | blocked =>
    obtain ⟨-, -, -, -, hin⟩ := exec1_eq_blocked.1 ho
    exact .inr ⟨.inl ⟨rfl, hin⟩, rfl, rfl⟩
  | halt v =>
    obtain ⟨-, -, rfl⟩ := exec1_eq_halt.1 ho
    exact .inr ⟨.inr (.inl rfl), rfl, rfl⟩
  | fault r => exact .inr ⟨.inr (.inr rfl), rfl, rfl⟩

/-- Settles O45: until the last instruction `runToOutput` has seen no OUT, and OUT is its only stop. -/
theorem runToOutputStops : Obligations.RunToOutputStops := by
  intro fuel s t hs h
  have hkeep : ∀ u v k, u.output = s.output → exec1 u = .done k v → RunOp.runToOutput.stopsAfter k = false →
      v.output = s.output := by
    intro u v k hu hv hk
    have hmoved := exec1_done_moved hv
    cases k with
    | other | input => exact hmoved.2.trans hu
    | output => cases hk
  obtain ⟨u, hu, hstop, rfl⟩ := run_returned_of_kept hkeep rfl hs h
  obtain ⟨k, hk, hpaused, hmoved⟩ | ⟨hstatus, -, hout⟩ := settled_exec1_cases hstop
  · cases k with
    | output => exact .inl ⟨hpaused, hu ▸ hmoved.2⟩
    | other | input => cases hk
  · exact .inr ⟨hstatus.imp_left And.left, hout.trans hu⟩

/-- Settles O46: until the last instruction `runToAnyIO` has seen no I/O, and OUT and IN are its stops. -/
theorem runToAnyIOStops : Obligations.RunToAnyIOStops := by
  intro fuel s t hs h
  have hkeep : ∀ u v k, u.input = s.input ∧ u.output = s.output → exec1 u = .done k v →
      RunOp.runToAnyIO.stopsAfter k = false → v.input = s.input ∧ v.output = s.output := by
    rintro u v k ⟨hin, hout⟩ hv hk
    cases k with
    | other =>
      obtain ⟨hin', hout'⟩ := exec1_done_moved hv
      exact ⟨hin'.trans hin, hout'.trans hout⟩
    | input | output => cases hk
  obtain ⟨u, ⟨hin, hout⟩, hstop, rfl⟩ := run_returned_of_kept hkeep ⟨rfl, rfl⟩ hs h
  obtain ⟨k, hk, hpaused, hmoved⟩ | ⟨hstatus, hin', hout'⟩ := settled_exec1_cases hstop
  · cases k with
    | output => exact .inl ⟨hpaused, hout ▸ hmoved.2, hmoved.1.trans hin⟩
    | input => exact .inr (.inl ⟨hpaused, hmoved.2.trans hout, hin ▸ hmoved.1⟩)
    | other => cases hk
  · exact .inr (.inr ⟨hstatus.imp_left And.left, hout'.trans hout, hin'.trans hin⟩)

/-- From `s` to `u`, words went off the front of the input Device and to the back of the output Device, in order
(10_state.md R29, 20_memory.md R48). -/
def State.InOrder (s u : State) : Prop := (∃ taken, s.input = taken ++ u.input) ∧ ∃ made, u.output = s.output ++ made

theorem State.InOrder.refl (s : State) : s.InOrder s := ⟨⟨[], rfl⟩, [], (List.append_nil _).symm⟩

theorem State.InOrder.of_eq {s u v : State} (h : s.InOrder u) (hin : v.input = u.input) (hout : v.output = u.output) :
    s.InOrder v := by
  rwa [State.InOrder, hin, hout]

/-- A completed instruction takes at most the front word and adds at most one at the back. -/
theorem State.InOrder.exec1_done {s u v : State} {k : DoneKind} (h : s.InOrder u) (hv : exec1 u = .done k v) :
    s.InOrder v := by
  have hmoved := exec1_done_moved hv
  obtain ⟨⟨taken, htaken⟩, made, hmade⟩ := h
  cases k with
  | other => exact State.InOrder.of_eq ⟨⟨taken, htaken⟩, made, hmade⟩ hmoved.1 hmoved.2
  | input =>
    obtain ⟨⟨w, hin⟩, hout⟩ := hmoved
    exact ⟨⟨taken ++ [w], by simp [htaken, hin]⟩, made, hout.trans hmade⟩
  | output =>
    obtain ⟨hin, w, hout⟩ := hmoved
    exact ⟨⟨taken, hin ▸ htaken⟩, made ++ [w], by simp [hout, hmade]⟩

/-- Settles O47: every completed instruction keeps the order of the Devices, and none is a stop of `runToCompletion`. -/
theorem runToCompletionStops : Obligations.RunToCompletionStops := by
  intro fuel s t hs h
  obtain ⟨u, hu, hstop, rfl⟩ := run_returned_of_kept (P := s.InOrder) (fun _ _ _ hu hv _ => hu.exec1_done hv)
    (.refl s) hs h
  obtain ⟨k, hk, -⟩ | ⟨hstatus, hin, hout⟩ := settled_exec1_cases hstop
  · cases k <;> cases hk
  · exact ⟨hstatus.imp_left (And.imp_right hin.trans), hu.of_eq hin hout⟩

/-! ## Fuel (60_exceptions.md R101, R121) -/

theorem runLoop_mono {op : RunOp} {n m : Nat} {s t : State} (h : runLoop op n s = .returned t) (hnm : n ≤ m) :
    runLoop op m s = .returned t := by
  induction n generalizing m s with
  | zero => cases h
  | succ n ih =>
    obtain ⟨m, rfl⟩ : ∃ m', m = m' + 1 := ⟨m - 1, by omega⟩
    exact (runLoop_succ_eq_returned op m s t).2 (((runLoop_succ_eq_returned op n s t).1 h).imp_right
      fun ⟨k, u, hu, hk, hrest⟩ => ⟨k, u, hu, hk, ih hrest (Nat.le_of_succ_le_succ hnm)⟩)

/-- Settles O48: the loop's turns are the same with more fuel. -/
theorem moreFuelSameReturn : Obligations.MoreFuelSameReturn := by
  intro op n m s t h hnm
  exact (run_eq_returned ..).2 (((run_eq_returned ..).1 h).imp_right (And.imp_right (runLoop_mono · hnm)))

/-! ## Steps (60_exceptions.md R97, R107) -/

/-- Settles O44: `step()` stops after every instruction. -/
theorem stepOperationIsTheStep : Obligations.StepOperationIsTheStep := by
  intro fuel s t
  have hstop : ∀ k, RunOp.step.stopsAfter k = true := by rintro (_ | _ | _) <;> rfl
  cases hs : s.status.terminal with
  | true => simp [run_of_terminal .step _ hs, step_of_terminal s hs]
  | false => simp [run_eq_returned, runLoop_succ_eq_returned, step_eq_settled s hs, hs, hstop, eq_comm (a := t)]

@[simp] theorem State.setStatus_setStatus (s : State) (x y : Status) :
    (s.setStatus x).setStatus y = s.setStatus y := rfl

theorem State.setStatus_eq_self {s : State} {x : Status} (h : s.status = x) : s.setStatus x = s := by
  subst h
  rfl

/-- `k + 1` steps are one step and `k` more. -/
theorem core_run_succ_eq_next {k : Nat} {s t : State} :
    Host.Core.run Sys2Proof.core (k + 1) s = .next t ↔
      ∃ u, step s = .next u ∧ Host.Core.run Sys2Proof.core k u = .next t := by
  obtain ⟨u, hu⟩ := everyStepAnswersNext s
  have hrun : Host.Core.run Sys2Proof.core (k + 1) s = Host.Core.run Sys2Proof.core k u := by
    simp only [Host.Core.run, show Sys2Proof.core.step s = .next u from hu]
  simp [hrun, hu]

/-- A step whose instruction completes pauses; Running again, the Machine is as the instruction left it. -/
theorem step_of_exec1_done {s u : State} {k : DoneKind} (hs : s.status.terminal = false)
    (hu : exec1 (s.setStatus .running) = .done k u) :
    step s = .next (u.setStatus .paused) ∧ (u.setStatus .paused).setStatus .running = u :=
  ⟨by rw [step_eq_settled s hs, hu]; rfl, State.setStatus_eq_self (exec1_done_status hu)⟩

/-- The loop of `runToCompletion` is some number of steps. -/
theorem exists_core_run_of_runLoop {op : RunOp} {n : Nat} {s t : State} (hs : s.status.terminal = false)
    (h : runLoop op n (s.setStatus .running) = .returned t) : ∃ k, Host.Core.run Sys2Proof.core k s = .next t := by
  induction n generalizing s with
  | zero => cases h
  | succ n ih =>
    obtain ⟨-, rfl⟩ | ⟨k, u, hu, -, hrest⟩ := (runLoop_succ_eq_returned ..).1 h
    · exact ⟨1, core_run_succ_eq_next.2 ⟨_, step_eq_settled s hs, rfl⟩⟩
    · obtain ⟨hstep, hsame⟩ := step_of_exec1_done hs hu
      obtain ⟨k, hk⟩ := ih (s := u.setStatus .paused) rfl (hsame.symm ▸ hrest)
      exact ⟨k + 1, core_run_succ_eq_next.2 ⟨_, hstep, hk⟩⟩

/-- A run operation does not depend on which status it begins in, of those in which it executes. -/
theorem run_setStatus {s : State} {x : Status} (op : RunOp) (fuel : Nat) (hs : s.status.terminal = false)
    (hx : x.terminal = false) : run op fuel (s.setStatus x) = run op fuel s := by
  simp [run, hs, hx]

/-- A step before a completed run makes a completed run with one more unit of fuel, or the same one when the step
blocked. -/
theorem exists_runToCompletion_of_step {s u t : State} {fuel : Nat} (hstep : step s = .next u)
    (h : run .runToCompletion fuel u = .returned t) : ∃ fuel, run .runToCompletion fuel s = .returned t := by
  cases hs : s.status.terminal with
  | true =>
    rw [step_of_terminal s hs] at hstep
    exact ⟨fuel, Host.Outcome.next.inj hstep ▸ h⟩
  | false =>
    cases ho : exec1 (s.setStatus .running) with
    | done k v =>
      obtain ⟨hpaused, hsame⟩ := step_of_exec1_done hs ho
      obtain rfl := Host.Outcome.next.inj (hpaused.symm.trans hstep)
      obtain ⟨hterm, -⟩ | ⟨-, hloop⟩ := (run_eq_returned ..).1 h
      · cases hterm
      · rw [hsame] at hloop
        exact ⟨fuel + 1, (run_eq_returned ..).2 (.inr ⟨hs, (runLoop_succ_eq_returned ..).2
          (.inr ⟨k, v, ho, by cases k <;> rfl, hloop⟩)⟩)⟩
    | blocked =>
      rw [step_eq_settled s hs, ho] at hstep
      obtain rfl : s.setStatus .pendingInput = u := Host.Outcome.next.inj hstep
      exact ⟨fuel, (run_setStatus (x := .pendingInput) _ fuel hs rfl).symm.trans h⟩
    | halt v | fault r =>
      rw [step_eq_settled s hs, ho] at hstep
      obtain rfl := Host.Outcome.next.inj hstep
      rw [run_of_terminal _ _ rfl] at h
      obtain rfl := RunResult.returned.inj h
      have hstop : ∀ k v, exec1 (s.setStatus .running) = .done k v → RunOp.runToCompletion.stopsAfter k = true := by
        simp [ho]
      have hloop := (runLoop_succ_eq_returned .runToCompletion 0 _ _).2 (.inl ⟨hstop, rfl⟩)
      exact ⟨1, (run_eq_returned ..).2 (.inr ⟨hs, ho ▸ hloop⟩)⟩

/-- Settles O49: the loop's turns are steps, and a step before a completed run makes a completed run. -/
theorem stepsSplitRuns : Obligations.StepsSplitRuns := by
  refine fun s t => ⟨fun fuel h => ?_, fun k h hterm => ?_⟩
  · obtain ⟨-, rfl⟩ | ⟨hs, hloop⟩ := (run_eq_returned ..).1 h
    · exact ⟨0, rfl⟩
    · exact exists_core_run_of_runLoop hs hloop
  · induction k generalizing s with
    | zero =>
      obtain rfl := Host.Outcome.next.inj h
      exact ⟨0, run_of_terminal _ _ hterm⟩
    | succ k ih =>
      obtain ⟨u, hstep, hrest⟩ := core_run_succ_eq_next.1 h
      obtain ⟨fuel, hfuel⟩ := ih u hrest
      exact exists_runToCompletion_of_step hstep hfuel

/-! ## A jump to itself (60_exceptions.md R102) -/

/-- A taken jump to its own address changes nothing. -/
theorem exec1_jump_to_itself {s : State} {i : Instr} {a target : Source} {v : Word} (hi : s.fetchInstr = .ok i)
    (hjump : i = .jnz a target ∧ v ≠ 0 ∨ i = .jz a target ∧ v = 0) (hv : s.readOperand a = .ok v)
    (hw : s.readOperand target = .ok (s.pc : Int)) : exec1 s = .done .other s := by
  obtain ⟨taken, hrule, htaken⟩ := ruleOf_jump (hjump.imp And.left And.left) s
  have ht : taken v = true := (htaken v).2 (by rcases hjump with ⟨rfl, h⟩ | ⟨rfl, h⟩ <;> simp [h])
  rw [exec1_of_fetch s i hi, hrule]
  exact (jumpRule_eq_done ..).2 ⟨rfl, v, _, hv, hw, .inl ⟨ht, Int.natCast_nonneg _, rfl⟩⟩

/-- Settles O51: every turn of the loop is the jump, and only `step` stops after it. -/
theorem jumpToItselfNeverReturns : Obligations.JumpToItselfNeverReturns := by
  intro op fuel s i a target v hs hop hi hjump hv hw
  have hexec : exec1 (s.setStatus .running) = .done .other (s.setStatus .running) :=
    exec1_jump_to_itself (by simpa using hi) hjump (by simpa using hv) (by simpa using hw)
  cases hrun : run op fuel s with
  | outOfFuel => rfl
  | returned t =>
    have hkeep : ∀ u w k, u = s.setStatus .running → exec1 u = .done k w → op.stopsAfter k = false →
        w = s.setStatus .running := by
      rintro u w k rfl hw -
      exact (InstrOutcome.done.inj (hw.symm.trans hexec)).2
    obtain ⟨u, rfl, hstop, -⟩ := run_returned_of_kept hkeep rfl hs hrun
    have hother := hstop _ _ hexec
    cases op with
    | step => exact absurd rfl hop
    | runToOutput | runToAnyIO | runToCompletion => cases hother

end Sys2Proof.Machine
end

section
/-! SUPPORT. A Machine that has more: parameters that allow more (00_scope.md R9, 40_alu.md R73) or more words waiting
in its input Device (60_exceptions.md R106). What succeeds without faulting succeeds there with the same result. -/

namespace Sys2Proof

/-- The parameters `d` allow everything that `c` allows: every address, so every Word, and every fetch. -/
structure Config.Extends (d c : Config) : Prop where
  addrMax_le : c.addrMax ≤ d.addrMax
  fetch_fault : d.fetchBeyondImage = .fault → c.fetchBeyondImage = .fault

theorem Config.Extends.refl (c : Config) : c.Extends c := ⟨Nat.le_refl _, id⟩

theorem Config.Extends.inRange {c d : Config} (h : d.Extends c) {v : Int} (hv : c.inRange v) : d.inRange v := by
  have := h.addrMax_le
  simp only [Config.inRange, Config.wordMax_eq, Config.wordMin_eq] at hv ⊢
  omega

end Sys2Proof

namespace Sys2Proof.Machine

/-- The same Machine under the parameters `d` and with more words waiting. -/
def State.extended (s : State) (d : Config) (ws : List Word) : State := { s with config := d, input := s.input ++ ws }

section
variable {s : State} {d : Config} (hd : d.Extends s.config) (ws : List Word)
include hd

/-! ## Checks that succeed -/

theorem State.checkWord_extended {r : Int} {v : Word} (h : s.checkWord r = .ok v) :
    (s.extended d ws).checkWord r = .ok v := by
  obtain ⟨hr, rfl⟩ := (State.checkWord_eq_ok ..).1 h
  exact (State.checkWord_eq_ok ..).2 ⟨hd.inRange hr, rfl⟩

theorem State.checkAddress_extended {a : Int} {n : Nat} (h : s.checkAddress a = .ok n) :
    (s.extended d ws).checkAddress a = .ok n := by
  obtain ⟨ha, hn⟩ := (State.checkAddress_eq_ok ..).1 h
  exact (State.checkAddress_eq_ok ..).2 ⟨ha, hn.trans hd.addrMax_le⟩

theorem State.readOperand_extended {o : Source} {v : Word} (h : s.readOperand o = .ok v) :
    (s.extended d ws).readOperand o = .ok v := by
  cases o with
  | immediate p => exact h
  | position p | relative p =>
    obtain ⟨a, ha, hv⟩ := (Checked.bind_eq_ok _ _ _).1 h
    exact (Checked.bind_eq_ok _ _ _).2 ⟨a, State.checkAddress_extended hd ws ha, hv⟩

theorem State.destAddress_extended {o : Destination} {n : Nat} (h : s.destAddress o = .ok n) :
    (s.extended d ws).destAddress o = .ok n := by
  cases o with
  | position p | relative p => exact State.checkAddress_extended hd ws h

theorem State.fetch_extended {a : Nat} {v : Word} (h : s.fetch a = .ok v) : (s.extended d ws).fetch a = .ok v := by
  obtain ⟨hspace, himage, rfl⟩ := (State.fetch_eq_ok ..).1 h
  exact (State.fetch_eq_ok ..).2 ⟨hspace.trans hd.addrMax_le, fun hf => himage (hd.fetch_fault hf), rfl⟩

theorem State.fetchParam_extended {n k : Nat} {p : Word} (h : s.fetchParam n k = .ok p) :
    (s.extended d ws).fetchParam n k = .ok p := by
  by_cases hk : k ≤ n
  · rw [State.fetchParam_of_le _ hk] at h ⊢
    exact State.fetch_extended hd ws h
  · rw [State.fetchParam, if_neg hk] at h ⊢
    exact h

theorem State.fetchInstr_extended {i : Instr} (h : s.fetchInstr = .ok i) : (s.extended d ws).fetchInstr = .ok i := by
  simp only [State.fetchInstr, Checked.bind_eq_ok] at h ⊢
  obtain ⟨w, hw, hdr, hh, p1, h1, p2, h2, p3, h3, hi⟩ := h
  exact ⟨w, State.fetch_extended hd ws hw, hdr, hh, p1, State.fetchParam_extended hd ws h1, p2,
    State.fetchParam_extended hd ws h2, p3, State.fetchParam_extended hd ws h3, hi⟩

/-! ## Instructions that do not fault -/

theorem threeOperandRule_extended {f g : Word → Word → Checked Word} (hfg : ∀ x y r, f x y = .ok r → g x y = .ok r)
    {a b : Source} {dest : Destination} {k : DoneKind} {t : State} (h : threeOperandRule f a b dest s = .done k t) :
    threeOperandRule g a b dest (s.extended d ws) = .done k (t.extended d ws) := by
  obtain ⟨rfl, va, vb, x, r, ha, hb, hx, hr, hpc, rfl⟩ := (threeOperandRule_eq_done ..).1 h
  exact (threeOperandRule_eq_done ..).2 ⟨rfl, va, vb, x, r, State.readOperand_extended hd ws ha,
    State.readOperand_extended hd ws hb, State.destAddress_extended hd ws hx, hfg _ _ _ hr,
    hpc.trans hd.addrMax_le, rfl⟩

theorem jumpRule_extended {taken : Word → Bool} {a target : Source} {k : DoneKind} {t : State}
    (h : jumpRule taken a target s = .done k t) :
    jumpRule taken a target (s.extended d ws) = .done k (t.extended d ws) := by
  obtain ⟨rfl, v, w, hv, hw, hcases⟩ := (jumpRule_eq_done ..).1 h
  refine (jumpRule_eq_done ..).2
    ⟨rfl, v, w, State.readOperand_extended hd ws hv, State.readOperand_extended hd ws hw, ?_⟩
  obtain ⟨ht, hnonneg, rfl⟩ | ⟨ht, hpc, rfl⟩ := hcases
  · exact .inl ⟨ht, hnonneg, rfl⟩
  · exact .inr ⟨ht, hpc.trans hd.addrMax_le, rfl⟩

theorem ruleOf_extended_done {i : Instr} {k : DoneKind} {t : State} (h : ruleOf i s = .done k t) :
    ruleOf i (s.extended d ws) = .done k (t.extended d ws) := by
  cases i with
  | add a b dest | mul a b dest =>
    exact threeOperandRule_extended hd ws (fun _ _ _ => State.checkWord_extended hd ws) h
  | lt a b dest | eq a b dest => exact threeOperandRule_extended hd ws (fun _ _ _ => id) h
  | inp dest =>
    obtain ⟨rfl, x, v, rest, hx, hin, hpc, rfl⟩ := (inRule_eq_done ..).1 h
    exact (inRule_eq_done ..).2 ⟨rfl, x, v, rest ++ ws, State.destAddress_extended hd ws hx,
      by simp [State.extended, hin], hpc.trans hd.addrMax_le, rfl⟩
  | out a =>
    obtain ⟨rfl, v, hv, hpc, rfl⟩ := (outRule_eq_done ..).1 h
    exact (outRule_eq_done ..).2 ⟨rfl, v, State.readOperand_extended hd ws hv, hpc.trans hd.addrMax_le, rfl⟩
  | jnz a target | jz a target => exact jumpRule_extended hd ws h
  | adj a =>
    obtain ⟨rfl, v, hv, hr, hpc, rfl⟩ := (adjRule_eq_done ..).1 h
    exact (adjRule_eq_done ..).2 ⟨rfl, v, State.readOperand_extended hd ws hv, hd.inRange hr,
      hpc.trans hd.addrMax_le, rfl⟩
  | hlt => exact (hltRule_not_done s t k h).elim

theorem exec1_extended_done {k : DoneKind} {t : State} (h : exec1 s = .done k t) :
    exec1 (s.extended d ws) = .done k (t.extended d ws) := by
  obtain ⟨i, hi, hrule⟩ := exec1_eq_done.1 h
  exact exec1_eq_done.2 ⟨i, State.fetchInstr_extended hd ws hi, ruleOf_extended_done hd ws hrule⟩

theorem exec1_extended_halt {t : State} (h : exec1 s = .halt t) :
    exec1 (s.extended d ws) = .halt (t.extended d ws) := by
  obtain ⟨hi, hpc, rfl⟩ := exec1_eq_halt.1 h
  exact exec1_eq_halt.2 ⟨State.fetchInstr_extended hd ws hi, hpc.trans hd.addrMax_le, rfl⟩

/-- An instruction that blocks still does where no words have come. -/
theorem exec1_extended_blocked (h : exec1 s = .blocked) : exec1 (s.extended d []) = .blocked := by
  obtain ⟨dest, a, hi, ha, hin⟩ := exec1_eq_blocked.1 h
  exact exec1_eq_blocked.2 ⟨dest, a, State.fetchInstr_extended hd [] hi, State.destAddress_extended hd [] ha,
    by simp [State.extended, hin]⟩

/-- A step that does not fault gives the same result under parameters that allow more. -/
theorem step_extended {t : State} (h : step s = .next t) (hf : t.status ≠ .faulted) :
    step (s.extended d []) = .next (t.extended d []) := by
  cases hs : s.status.terminal with
  | true =>
    rw [step_of_terminal s hs] at h
    exact Host.Outcome.next.inj h ▸ step_of_terminal _ hs
  | false =>
    have hd' : d.Extends (s.setStatus .running).config := hd
    rw [step_eq_settled s hs] at h
    obtain rfl := Host.Outcome.next.inj h
    rw [step_eq_settled (s.extended d []) hs]
    show Host.Outcome.next (State.settled _ (exec1 ((s.setStatus .running).extended d []))) = _
    cases ho : exec1 (s.setStatus .running) with
    | done k u =>
      rw [exec1_extended_done hd' [] ho]
      rfl
    | blocked =>
      rw [exec1_extended_blocked hd' ho]
      rfl
    | halt u =>
      rw [exec1_extended_halt hd' [] ho]
      rfl
    | fault r => exact absurd (by rw [ho]; rfl) hf

end

/-! ## The parameters (40_alu.md R73, 20_memory.md R38) -/

theorem State.extended_nil (s : State) (d : Config) : s.extended d [] = { s with config := d } := by
  simp [State.extended]

theorem step_keeps_config {s t : State} (h : step s = .next t) : t.config = s.config := by
  obtain ⟨x, f, rfl⟩ | ⟨n, rfl⟩ | ⟨i, k, u, -, hu, rfl⟩ := step_cases h
  · rfl
  · rfl
  · exact hu.config_eq

/-- Settles O57: a wider Word allows more addresses and the same fetches. -/
theorem widerWordsSameResult : Obligations.WiderWordsSameResult := by
  intro s t n hn h hf
  have hconfig : t.config = s.config := step_keeps_config h
  have hd : ({ s.config with wordBits := n } : Config).Extends s.config := ⟨Config.addrMax_mono hn, id⟩
  simpa only [State.extended_nil, hconfig] using step_extended hd h hf

/-- Settles O58: `sparse` allows the same addresses and every fetch. -/
theorem sparseFetchSameResult : Obligations.SparseFetchSameResult := by
  intro s t _ h hf
  have hconfig : t.config = s.config := step_keeps_config h
  have hd : ({ s.config with fetchBeyondImage := .sparse } : Config).Extends s.config := ⟨Nat.le_refl _, nofun⟩
  simpa only [State.extended_nil, hconfig] using step_extended hd h hf

/-! ## Resuming with more words (60_exceptions.md R106) -/

/-- A loop that blocked in `t`, and the loop from `t` with more words, are together the loop that had the words from the
start. -/
theorem exists_runLoop_of_resumed {op : RunOp} {n m : Nat} {s t u : State} (ws : List Word) (hs : s.status = .running)
    (ht : runLoop op n s = .returned t) (hpending : t.status = .pendingInput)
    (hu : runLoop op m { t with input := t.input ++ ws, status := .running } = .returned u) :
    ∃ k, runLoop op k (s.extended s.config ws) = .returned u := by
  induction n generalizing s with
  | zero => cases ht
  | succ n ih =>
    obtain ⟨-, rfl⟩ | ⟨k, v, hv, hk, hrest⟩ := (runLoop_succ_eq_returned ..).1 ht
    · have hblocked := (State.settled_status_eq_pendingInput_iff ..).1 hpending
      rw [hblocked] at hu
      rw [← State.setStatus_eq_self (s := s.extended s.config ws) hs]
      exact ⟨m, hu⟩
    · have hsame := exec1_done_config hv
      obtain ⟨j, hj⟩ := ih ((exec1_done_status hv).trans hs) hrest
      rw [hsame] at hj
      exact ⟨j + 1, (runLoop_succ_eq_returned ..).2
        (.inr ⟨k, _, exec1_extended_done (.refl _) ws hv, hk, hj⟩)⟩

/-- Settles O50: words that wait behind those a run takes do not change it, up to the IN that blocked. -/
theorem resumeIsTransparent : Obligations.ResumeIsTransparent := by
  intro op n m s t u ws hs ht hpending hu
  obtain ⟨hterm, -⟩ | ⟨-, hloop⟩ := (run_eq_returned ..).1 ht
  · exact absurd (hs.symm.trans hterm) (by decide)
  obtain ⟨hterm, -⟩ | ⟨-, hresumed⟩ := (run_eq_returned ..).1 hu
  · exact absurd hpending (ne_pendingInput_of_terminal hterm)
  obtain ⟨k, hk⟩ := exists_runLoop_of_resumed ws rfl hloop hpending hresumed
  exact ⟨k, (run_eq_returned ..).2 (.inr ⟨hs, hk⟩)⟩

end Sys2Proof.Machine
end

section
/-! SUPPORT. The host interface (60_exceptions.md R110 to R113), and the Machines a network driver's visit leaves alone
(R120, R124). -/

namespace Sys2Proof.Machine

/-! ## The host's reads (60_exceptions.md R112, R113) -/

/-- Settles O55: a cell is read exactly where it has an address. -/
theorem hostReads : Obligations.HostReads := by
  refine fun s a => ⟨fun hnonneg hmax => if_pos ⟨hnonneg, hmax⟩, fun hout => if_neg ?_, rfl, rfl⟩
  rintro ⟨hnonneg, hmax⟩
  exact hout.elim (not_lt.2 hnonneg) (not_lt.2 hmax)

/-! ## PushAscii (60_exceptions.md R110) -/

theorem allowedChar_eq_true {c : Char} : allowedChar c = true ↔ c.toNat = 10 ∨ 32 ≤ c.toNat ∧ c.toNat ≤ 126 :=
  decide_eq_true_iff

theorem allowedChar_eq_false {c : Char} : allowedChar c = false ↔ ¬ (c.toNat = 10 ∨ 32 ≤ c.toNat ∧ c.toNat ≤ 126) :=
  decide_eq_false_iff_not

/-- An allowed character's code is a Word at every legal width. -/
theorem allowedChar_inRange {c : Config} (hc : c.legal = true) {ch : Char} (h : allowedChar ch = true) :
    c.inRange (ch.toNat : Int) := by
  have := c.le_addrMax hc
  have := allowedChar_eq_true.1 h
  simp only [Config.inRange, Config.wordMax_eq, Config.wordMin_eq]
  omega

theorem asText_codes {cs : List Char} (h : ∀ c ∈ cs, c.toNat ≤ 127) :
    asText (cs.map fun c => (c.toNat : Int)) = cs.map some := by
  rw [asText, List.map_map]
  refine List.map_congr_left fun c hc => ?_
  have hcode : (0 : Int) ≤ c.toNat ∧ (c.toNat : Int) ≤ 127 := ⟨Int.natCast_nonneg _, by exact_mod_cast h c hc⟩
  simp [hcode, Char.ofNat_toNat]

/-- Settles O53: without a refused character the codes are pushed one by one, and with one nothing is pushed. -/
theorem pushAsciiOperation : Obligations.PushAsciiOperation := by
  refine ⟨fun s cs hc => ⟨fun hall => ?_, fun hbad => ?_⟩, fun cs => asText_codes, fun w hw => ?_⟩
  · have hallowed : ∀ c ∈ cs, allowedChar c = true := fun c hcs => allowedChar_eq_true.2 (hall c hcs)
    rw [State.pushAscii_of_allowed hallowed]
    exact pushInput_foldlM s _ (List.forall_mem_map.2 fun c hcs => allowedChar_inRange hc (hallowed c hcs))
  · obtain ⟨c, hcs, hrefused⟩ := hbad
    obtain ⟨e, he⟩ := State.pushAscii_of_refused (s := s) ⟨c, hcs, allowedChar_eq_false.2 hrefused⟩
    exact ⟨⟨e, he⟩, fun t ht => by rwa [State.Does, he] at ht⟩
  · have hno : ¬ (0 ≤ w ∧ w ≤ 127) := fun ⟨h0, h127⟩ => hw.elim (not_lt.2 h0) (not_lt.2 h127)
    simp [asText, hno]

/-! ## A visit of the network driver (60_exceptions.md R120, R124) -/

/-- The Machine at position `j` is `s`, but for words pushed to the back of its input Device. -/
def Network.HoldsPushed (net : Network) (j : Nat) (s : State) : Prop :=
  ∃ ws, net.machines[j]? = some { s with input := s.input ++ ws }

theorem liftHost_eq_ok {α : Type} {x : Except HostError α} {a : α} : liftHost x = .ok a ↔ x = .ok a := by
  cases x <;> simp [liftHost]

/-- A sequence of two driver operations succeeds exactly when both do. -/
theorem driver_bind_eq_ok {α β : Type} {x : Except DriverError α} {f : α → Except DriverError β} {b : β} :
    x >>= f = .ok b ↔ ∃ a, x = .ok a ∧ f a = .ok b := by
  cases x <;> simp [bind, Except.bind]

/-- Routing a packet pushes two words to the back of one Machine's input Device, or gives the packet to the NAT. -/
theorem route_keeps_holdsPushed {net after : Network} {p : Packet} {j : Nat} {s : State}
    (h : route net p = .ok after) (hs : net.HoldsPushed j s) : after.HoldsPushed j s := by
  unfold route at h
  split at h
  · obtain rfl := Except.ok.inj h
    exact hs
  next k _ =>
    split at h
    · obtain rfl := Except.ok.inj h
      exact hs
    next u hu =>
      simp only [driver_bind_eq_ok, liftHost_eq_ok, pushInput_eq_ok] at h
      obtain ⟨_, ⟨-, rfl⟩, _, ⟨-, rfl⟩, h⟩ := h
      obtain rfl := Except.ok.inj h
      obtain ⟨ws, hws⟩ := hs
      by_cases hjk : k = j
      · subst hjk
        obtain rfl := Option.some.inj (hu.symm.trans hws)
        have hlt := (List.getElem?_eq_some_iff.1 hws).1
        exact ⟨ws ++ [p.x, p.y], by simp [hlt]⟩
      · exact ⟨ws, by simpa [List.getElem?_set_ne hjk] using hws⟩

theorem foldlM_route_keeps_holdsPushed {ps : List Packet} {net after : Network} {j : Nat} {s : State}
    (h : ps.foldlM route net = .ok after) (hs : net.HoldsPushed j s) : after.HoldsPushed j s := by
  induction ps generalizing net with
  | nil =>
    obtain rfl := Except.ok.inj h
    exact hs
  | cons p ps ih =>
    obtain ⟨mid, hmid, hrest⟩ := driver_bind_eq_ok.1 h
    exact ih hrest (route_keeps_holdsPushed hmid hs)

/-- A visit replaces at most the visited Machine, and then routes packets (60_exceptions.md R124). -/
theorem visit_cases {params : NetworkParams} {fuel k n : Nat} {net after : Network}
    (h : visit params fuel net k = .ok (after, n)) :
    after = net ∨ ∃ (t : State) (ps : List Packet),
      ps.foldlM route { net with machines := net.machines.set k t } = .ok after := by
  unfold visit at h
  split at h
  · obtain ⟨rfl, -⟩ := Prod.mk.inj (Except.ok.inj h)
    exact .inl rfl
  next u hu =>
    refine .inr ?_
    dsimp only at h
    split at h
    all_goals
      obtain ⟨fed, -, h⟩ := driver_bind_eq_ok.1 h
      obtain ⟨ran, -, h⟩ := driver_bind_eq_ok.1 h
      obtain ⟨routed, hrouted, h⟩ := driver_bind_eq_ok.1 h
      obtain ⟨rfl, -⟩ := Prod.mk.inj (Except.ok.inj h)
      exact ⟨_, _, hrouted⟩

/-- Settles O59: the visited Machine alone is replaced, and packets reach the others by routing only. -/
theorem visitTouchesOneMachine : Obligations.VisitTouchesOneMachine := by
  intro params fuel k j n net after s h hjk hs
  obtain rfl | ⟨t, ps, hrouted⟩ := visit_cases h
  · exact ⟨[], by simpa using hs⟩
  · exact foldlM_route_keeps_holdsPushed hrouted ⟨[], by simpa [List.getElem?_set_ne hjk.symm] using hs⟩

end Sys2Proof.Machine
end
